-- ==== Sys2Proof/Word.lean ====
section
/-! DEFINITION. The plain data widths of the block: bytes, nibbles and the 32-bit words of its ports. -/

namespace Sys2Proof

/-- A data item of the block: 8 bits (spec/00_scope.md R13). -/
abbrev Byte := BitVec 8

/-- Half a byte, one hex character of the source's text (spec/00_scope.md R16). -/
abbrev Nibble := BitVec 4

/-- A command word or a response word (spec/30_encoding.md R61, R65, R67). -/
abbrev Word := BitVec 32

end Sys2Proof
end

