-- ==== Sys2Proof/Config.lean ====
section
/-! DEFINITION. The configuration record of an instance (spec/00_scope.md R12) and the constants the spec leaves
open. A configuration is fixed when an instance is built, and no command writes it (spec/10_state.md R27). -/

namespace Sys2Proof

/-- Where a tag may match (spec/20_memory.md R43): at byte positions, or at every nibble position. -/
inductive MatchGrid where
  | byte
  | nibble
deriving DecidableEq, Repr

/-- The parameters of R12. `SIGS`, the five-row signature table, is fixed and stands in Decode.lean. -/
structure Config where
  /-- `CRC_TABLE`, 256 entries of 8 bits (R29, R130). -/
  crcTable : Vector Byte 256
  /-- `CHUNK_MAX`, the largest chunk one PUSH may carry. -/
  chunkMax : Nat
  /-- `BUF_CAP`; `none` is `INF`. -/
  bufCap : Option Nat
  /-- `MATCH_GRID`. -/
  matchGrid : MatchGrid
  /-- `DIAG_APPEND`. -/
  diagAppend : Bool
deriving DecidableEq, Repr

/-- The table of the built instance. OPEN (spec/41_crc.md R130, decision D15): no value is assumed.
DESIGN CHOICE, safe; entry 2. -/
opaque Config.openCrcTable : Vector Byte 256

/-- `CHUNK_MAX` of the built instance, less one. OPEN between the bounds 1 and 65535 of R12 (decision D11).
DESIGN CHOICE, safe; entry 3. -/
opaque Config.openChunkMaxPred : Fin 65535

/-- The instance `State.reset` describes: the two open parameters are opaque, the three others have the defaults
of R12. -/
def Config.built : Config where
  crcTable := Config.openCrcTable
  chunkMax := Config.openChunkMaxPred.val + 1
  bufCap := none
  matchGrid := .byte
  diagAppend := false

/-- `LMAX`, the longest declared length of the signature table (R13). -/
def lmax : Nat := 31

end Sys2Proof
end

