-- ==== Sys2Proof/Syntax.lean ====
section
/-! DEFINITION. The instructions: one constructor per row of spec/opcode_table.json, and the names their encodings use. -/

namespace Sys2Proof

/-- The row of the signature table, in priority order (spec/30_encoding.md R70; R17 "Kind"). -/
inductive Kind where
  | ignoredHeater
  | chStatus
  | hcStatus
  | dhwStatus
  | datetime
deriving DecidableEq, Repr

/-- What the block does with a complete frame of a kind (R70, column Action). -/
inductive Action where
  | ignore
  | decode
deriving DecidableEq, Repr

/-- One constructor per row of spec/opcode_table.json (R77). The four CMD rows are the commands of the command port
(R60). The five TAG32 rows are what the scan of a PUSH runs when it selects that row's kind: `pos` is the match
position on the match grid, `ovf` and `diag` are the OVF and DIAG values of the PUSH that scans (R100, R109, R110).
The TAG24 row is what a PUSH runs when its chunk begins with the diagnostic prefix: `rest` is the chunk after the
three prefix bytes (R102). DESIGN CHOICE: entries 7 and 8. -/
inductive Instr where
  /-- RESET (R150). -/
  | reset
  /-- PUSH of a received chunk (R100). -/
  | push (chunk : List Byte)
  /-- FLUSH (R151). -/
  | flush
  /-- CRCQ: declared length `len` in bytes and payload (R140). -/
  | crcq (len : Nat) (payload : List Byte)
  /-- Kind 0 selected at `pos` (R109). -/
  | tagIgnoredHeater (pos : Nat) (ovf diag : Bool)
  /-- Kind 1 selected at `pos` (R110). -/
  | tagChStatus (pos : Nat) (ovf diag : Bool)
  /-- Kind 2 selected at `pos` (R110). -/
  | tagHcStatus (pos : Nat) (ovf diag : Bool)
  /-- Kind 3 selected at `pos` (R110). -/
  | tagDhwStatus (pos : Nat) (ovf diag : Bool)
  /-- Kind 4 selected at `pos` (R110). -/
  | tagDatetime (pos : Nat) (ovf diag : Bool)
  /-- A chunk that begins with `#HR` (R102). -/
  | diagPrefixHr (rest : List Byte)
deriving DecidableEq, Repr

/-- Where the bits of an instruction are read, and what is known there besides the bits: the command port (format
CMD), the buffer at a match position under the OVF and DIAG of the PUSH that scans (format TAG32), or the chunk of a
PUSH (format TAG24). -/
inductive Site where
  | command
  | signature (pos : Nat) (ovf diag : Bool)
  | chunk
deriving DecidableEq, Repr

/-- Why a decoder rejects bits, by name. The first three are the illegal command words of R69 and R171 (but for the
CHUNK_MAX test, which PUSH itself makes, R100); the others say that bytes are no tag (R74) and no prefix (R102). -/
inductive Rejection where
  | reservedOp (op : BitVec 4)
  | argNotZero (op : BitVec 4)
  | countNotZero (op : BitVec 4)
  | unknownTag
  | noPrefix
deriving DecidableEq, Repr

/-- What a decoder answers: an instruction or a named rejection, each with the bytes after it, or that the bytes of
one whole item are not all there. -/
inductive Decoded where
  | instr (i : Instr) (rest : List Byte)
  | rejected (why : Rejection) (rest : List Byte)
  | incomplete
deriving DecidableEq, Repr

end Sys2Proof
end

