-- ==== Sys2Proof/WellFormed.lean ====
section
/-! DEFINITION. Which instructions and which configurations the spec admits. -/

namespace Sys2Proof

/-- The operands fit their fields: N is 16 bits and L is 12 bits (spec/30_encoding.md R60 to R63). The bound
`CHUNK_MAX` of a chunk is no part of this: PUSH tests it (R100), and a longer chunk is answered ILLEGAL. -/
def Instr.wf : Instr → Bool
  | .reset => true
  | .push chunk => decide (chunk.length ≤ 65535)
  | .flush => true
  | .crcq len payload => decide (len ≤ 4095) && decide (payload.length ≤ 65535)
  | .tagIgnoredHeater _ _ _ => true
  | .tagChStatus _ _ _ => true
  | .tagHcStatus _ _ _ => true
  | .tagDhwStatus _ _ _ => true
  | .tagDatetime _ _ _ => true
  | .diagPrefixHr rest => decide (rest.length + 3 ≤ 65535)

/-- The instruction is one of the four commands of the command port (R60). -/
def Instr.isCommand : Instr → Bool
  | .reset => true
  | .push _ => true
  | .flush => true
  | .crcq _ _ => true
  | .tagIgnoredHeater _ _ _ => false
  | .tagChStatus _ _ _ => false
  | .tagHcStatus _ _ _ => false
  | .tagDhwStatus _ _ _ => false
  | .tagDatetime _ _ _ => false
  | .diagPrefixHr _ => false

/-- The configuration keeps the constraints of spec/70_reset_and_hazards.md R192 item 2:
`1 <= CHUNK_MAX <= 65535`, and a finite `BUF_CAP` is at least `CHUNK_MAX + 31`. -/
def Config.legal (c : Config) : Bool :=
  decide (1 ≤ c.chunkMax) && decide (c.chunkMax ≤ 65535) &&
    match c.bufCap with
    | none => true
    | some cap => decide (c.chunkMax + lmax ≤ cap)

end Sys2Proof
end

