-- ==== Sys2Proof/Decode.lean ====
section
/-! DEFINITION. The signature table, the decoders of the three formats of spec/opcode_table.json, and the encoder. -/

namespace Sys2Proof

/-! ### The signature table (spec/30_encoding.md R70) -/

/-- The kinds in the scan's fixed priority order, row 0 first (R70, R105; decision D6). -/
def Kind.priority : List Kind := [.ignoredHeater, .chStatus, .hcStatus, .dhwStatus, .datetime]

/-- `TAG_k`, first byte first (R70). -/
def Kind.tag : Kind → List Byte
  | .ignoredHeater => [0x88, 0x00, 0x20, 0x00]
  | .chStatus => [0x88, 0x00, 0x18, 0x00]
  | .hcStatus => [0x90, 0x00, 0xFF, 0x00]
  | .dhwStatus => [0x88, 0x00, 0x34, 0x00]
  | .datetime => [0x90, 0x00, 0x06, 0x00]

/-- `L_k`, the declared length in bytes, tag included (R70). -/
def Kind.length : Kind → Nat
  | .ignoredHeater => 31
  | .chStatus => 31
  | .hcStatus => 14
  | .dhwStatus => 23
  | .datetime => 14

/-- `ACTION_k` (R70). -/
def Kind.action : Kind → Action
  | .ignoredHeater => .ignore
  | .chStatus => .decode
  | .hcStatus => .decode
  | .dhwStatus => .decode
  | .datetime => .decode

/-- The row index of a kind (R68, R70). -/
def Kind.index : Kind → Nat
  | .ignoredHeater => 0
  | .chStatus => 1
  | .hcStatus => 2
  | .dhwStatus => 3
  | .datetime => 4

/-- The instruction of a signature row, at a match position and under the OVF and DIAG of the scanning PUSH. -/
def Kind.instr (k : Kind) (pos : Nat) (ovf diag : Bool) : Instr :=
  match k with
  | .ignoredHeater => .tagIgnoredHeater pos ovf diag
  | .chStatus => .tagChStatus pos ovf diag
  | .hcStatus => .tagHcStatus pos ovf diag
  | .dhwStatus => .tagDhwStatus pos ovf diag
  | .datetime => .tagDatetime pos ovf diag

/-- The diagnostic prefix `#HR` as bytes (R73). PRESUMED: its ASCII codes, as I18 of
spec/93_implementation_defined.md gives them; entry 12. -/
def diagTag : List Byte := [0x23, 0x48, 0x52]

/-! ### Words and bytes -/

/-- A word from its four bytes in link order: bits 31:24 first (R61). -/
def wordOfBytes (b3 b2 b1 b0 : Byte) : Word := b3 ++ b2 ++ b1 ++ b0

/-- The four bytes of a word in link order (R61). -/
def bytesOfWord (w : Word) : List Byte :=
  [w.extractLsb' 24 8, w.extractLsb' 16 8, w.extractLsb' 8 8, w.extractLsb' 0 8]

/-- `OP = w[31:28]` (R61). -/
def opField (w : Word) : BitVec 4 := w.extractLsb' 28 4

/-- `ARG = w[27:16]` (R61). -/
def argField (w : Word) : BitVec 12 := w.extractLsb' 16 12

/-- `N = w[15:0]` (R61). -/
def countField (w : Word) : BitVec 16 := w.extractLsb' 0 16

/-- The command word of an OP, an ARG and an N (R61). -/
def commandWord (op : BitVec 4) (arg : BitVec 12) (n : BitVec 16) : Word := op ++ arg ++ n

/-! ### The decoders -/

/-- The command of a word and its data bytes (R62, R63, R69): an illegal word is rejected by name. -/
def decodeWord (w : Word) (data rest : List Byte) : Decoded :=
  let op := opField w
  let argZero := decide (argField w = 0)
  let countZero := decide (countField w = 0)
  match op.toNat with
  | 1 => if !argZero then .rejected (.argNotZero op) rest
         else if !countZero then .rejected (.countNotZero op) rest
         else .instr .reset rest
  | 2 => if !argZero then .rejected (.argNotZero op) rest
         else .instr (.push data) rest
  | 3 => if !argZero then .rejected (.argNotZero op) rest
         else if !countZero then .rejected (.countNotZero op) rest
         else .instr .flush rest
  | 4 => .instr (.crcq (argField w).toNat data) rest
  | _ => .rejected (.reservedOp op) rest

/-- The packed command stream (R75): read the command word, take N from bits 15:0, then take exactly N data bytes,
for an illegal word too. Fewer bytes than that are an incomplete command. -/
def decodeCommand : List Byte → Decoded
  | b3 :: b2 :: b1 :: b0 :: tail =>
    let w := wordOfBytes b3 b2 b1 b0
    let n := (countField w).toNat
    if tail.length < n then .incomplete
    else decodeWord w (tail.take n) (tail.drop n)
  | _ => .incomplete

/-- The signature decoder: the kind whose tag stands first (R70). Any other four bytes are unrecognised (R74); fewer
than four bytes are a partial tag (R111). -/
def decodeSignature (pos : Nat) (ovf diag : Bool) (bytes : List Byte) : Decoded :=
  if bytes.length < 4 then .incomplete
  else match Kind.priority.find? (fun k => bytes.take 4 == k.tag) with
    | some k => .instr (k.instr pos ovf diag) (bytes.drop 4)
    | none => .rejected .unknownTag (bytes.drop 4)

/-- `DiagPrefix(C)` (R102): the chunk's first three bytes are `23 48 52`. -/
def diagPrefix (chunk : List Byte) : Bool := chunk.take 3 == diagTag

/-- The prefix decoder over a whole chunk (R102): the chunk belongs to the instruction to its end. -/
def decodeChunk (chunk : List Byte) : Decoded :=
  if diagPrefix chunk then .instr (.diagPrefixHr (chunk.drop 3)) []
  else .rejected .noPrefix chunk

/-- The decoder of each format, total on any bytes. -/
def decode : Site → List Byte → Decoded
  | .command, bytes => decodeCommand bytes
  | .signature pos ovf diag, bytes => decodeSignature pos ovf diag bytes
  | .chunk, bytes => decodeChunk bytes

/-! ### The encoder -/

/-- Where an instruction's bits are read (R77). -/
def Instr.site : Instr → Site
  | .reset => .command
  | .push _ => .command
  | .flush => .command
  | .crcq _ _ => .command
  | .tagIgnoredHeater pos ovf diag => .signature pos ovf diag
  | .tagChStatus pos ovf diag => .signature pos ovf diag
  | .tagHcStatus pos ovf diag => .signature pos ovf diag
  | .tagDhwStatus pos ovf diag => .signature pos ovf diag
  | .tagDatetime pos ovf diag => .signature pos ovf diag
  | .diagPrefixHr _ => .chunk

/-- The bytes of a well-formed instruction (R61 to R63, R70, R73). -/
def encode : Instr → List Byte
  | .reset => bytesOfWord (commandWord 1 0 0)
  | .push chunk => bytesOfWord (commandWord 2 0 (BitVec.ofNat 16 chunk.length)) ++ chunk
  | .flush => bytesOfWord (commandWord 3 0 0)
  | .crcq len payload =>
      bytesOfWord (commandWord 4 (BitVec.ofNat 12 len) (BitVec.ofNat 16 payload.length)) ++ payload
  | .tagIgnoredHeater _ _ _ => Kind.ignoredHeater.tag
  | .tagChStatus _ _ _ => Kind.chStatus.tag
  | .tagHcStatus _ _ _ => Kind.hcStatus.tag
  | .tagDhwStatus _ _ _ => Kind.dhwStatus.tag
  | .tagDatetime _ _ _ => Kind.datetime.tag
  | .diagPrefixHr rest => diagTag ++ rest

/-- How many bytes an instruction occupies (R75): 4 for RESET and FLUSH, `4 + N` for PUSH and CRCQ; a tag is four
bytes (R70), and the prefix row spans its chunk (R102). -/
def Instr.size : Instr → Nat
  | .reset => 4
  | .push chunk => 4 + chunk.length
  | .flush => 4
  | .crcq _ payload => 4 + payload.length
  | .tagIgnoredHeater _ _ _ => 4
  | .tagChStatus _ _ _ => 4
  | .tagHcStatus _ _ _ => 4
  | .tagDhwStatus _ _ _ => 4
  | .tagDatetime _ _ _ => 4
  | .diagPrefixHr rest => 3 + rest.length

/-! ### The rows of the opcode table as numbers -/

/-- The three bytes of a 24-bit table word, first byte in its highest bits (R14, R73). -/
def bytesOfWord24 (w : Nat) : List Byte :=
  [BitVec.ofNat 8 (w >>> 16), BitVec.ofNat 8 (w >>> 8), BitVec.ofNat 8 w]

/-- A table word in the command format as the byte link carries it: the command word, then its N data bytes, data
byte j from bits 32+8j and up, zero where the table gives no bits (R61, R75). -/
def commandBytes (w : Nat) : List Byte :=
  bytesOfWord (BitVec.ofNat 32 w) ++
    (List.range (w % 2 ^ 16)).map (fun j => BitVec.ofNat 8 (w >>> (32 + 8 * j)))

/-- The site at which a word of the table is read, from its width and value. A 24-bit word is a TAG24 row. A 32-bit
word that is one of the five tags is a TAG32 row (as a command word each of them has a reserved OP, so no legal
command is read otherwise). Every other word of at least 32 bits is a CMD row. DESIGN CHOICE: entry 9. -/
def tableSite (nbits w : Nat) : Option Site :=
  if nbits = 24 then some .chunk
  else if nbits < 32 then none
  else if nbits = 32 && Kind.priority.any (fun k => bytesOfWord (BitVec.ofNat 32 w) == k.tag) then
    some (.signature 0 false false)
  else some .command

/-- The bytes of a table word at its site. -/
def tableBytes (site : Site) (w : Nat) : List Byte :=
  match site with
  | .command => commandBytes w
  | .signature _ _ _ => bytesOfWord (BitVec.ofNat 32 w)
  | .chunk => bytesOfWord24 w

/-- The instruction the decoder reads from a word of the opcode table (the host's fixed name; entry 9). -/
def decodeTableWord (nbits w : Nat) : Option Instr :=
  match tableSite nbits (w % 2 ^ nbits) with
  | none => none
  | some site =>
    match decode site (tableBytes site (w % 2 ^ nbits)) with
    | .instr i _ => some i
    | .rejected _ _ => none
    | .incomplete => none

end Sys2Proof
end

