-- ==== Sys2Proof/Machine/State.lean ====
section
/-! DEFINITION. The state of the machine, the records of its two output ports, the reasons a step can stop, and reset. -/

namespace Sys2Proof.Machine

/-- `EVT` of a response (spec/30_encoding.md R66). The codes 7 to 14 have no constructor: they are never produced. -/
inductive Event where
  | noMatch
  | wait
  | frameOk
  | frameBad
  | ignored
  | crcResult
  | ack
  | illegal
deriving DecidableEq, Repr

/-- `CRC_REASON` (R68): `none` is code 0, the check passed or did not run. -/
inductive CrcReason where
  | none
  | mismatch
  | short
  | range
deriving DecidableEq, Repr

/-- One response (R64). `kind = none` is the code 7. `bufLen` and `matchOff` are unbounded integers, as R67 says for
a build with `BUF_CAP = INF`; the packed 16-bit fields are in Flags.lean. `frame` is `F`, empty for none. -/
structure Response where
  evt : Event
  kind : Option Kind
  ovf : Bool
  diag : Bool
  crcOk : Bool
  crcReason : CrcReason
  crcVal : Byte
  bufLen : Nat
  matchOff : Nat
  frame : List Byte
deriving DecidableEq, Repr

/-- One output of the decoder port: `dec_kind`, `dec_len`, `dec_frame` (spec/40_demux.md R112). -/
structure DecoderOutput where
  kind : Kind
  len : Nat
  frame : List Byte
deriving DecidableEq, Repr

/-- The machine. `buf` is the block's whole architectural state (spec/10_state.md R20). `cfg` is the fixed
configuration of R12 (entry 1). The other fields are the model's own: `cmdIn` holds the bytes the host has presented at
the command port and the block has not taken, oldest first (R61, R75; entry 4); `responses` and `decoderOut` are the
sequences of outputs that R194 names as a run's observation, oldest first, which no step reads (R31; entry 5). -/
structure State where
  cfg : Config
  buf : List Byte
  cmdIn : List Byte
  responses : List Response
  decoderOut : List DecoderOutput
deriving DecidableEq, Repr

/-- The machine stops with a fault. The block has none: "No error in this subsystem is fatal to the process",
and every command completes with a response (spec/60_exceptions.md R170); entry 6. -/
inductive Fault where
deriving DecidableEq, Repr

/-- No meaning for an instruction. -/
inductive Refusal where
  /-- Raised by an arm of `exec` that has no meaning yet; safe. No arm raises it. -/
  | notModelled (mnemonic : String)
deriving DecidableEq, Repr

/-- Power-on state of an instance with configuration `cfg` (spec/70_reset_and_hazards.md R190): `BUF = []`. The
model's own fields are empty: nothing presented, nothing answered. DESIGN CHOICE: entries 4 and 5. -/
def State.powerOn (cfg : Config) : State where
  cfg := cfg
  buf := []
  cmdIn := []
  responses := []
  decoderOut := []

/-- The machine right after reset: power-on of the built instance (R190, R192). -/
def State.reset : State := State.powerOn Config.built

end Sys2Proof.Machine
end

