-- ==== Sys2Proof/Machine/Operands.lean ====
section
/-! DEFINITION. The operand forms of the demultiplexer: nibbles, tag search, completeness and extraction on either
match grid, and the scan (spec/40_demux.md R104 to R106, spec/00_scope.md R16). -/

namespace Sys2Proof.Machine

/-- The two nibbles of a byte, high nibble first (R16). -/
def nibblesOfByte (b : Byte) : List Nibble := [b.extractLsb' 4 4, b.extractLsb' 0 4]

/-- `N(B)`, the nibble sequence of a byte sequence (R16). -/
def nibbles (bytes : List Byte) : List Nibble := bytes.flatMap nibblesOfByte

/-- Bytes from nibbles, two at a time: `16*q[2j] + q[2j+1]` (R104). A last odd nibble is dropped. -/
def bytesOfNibbles : List Nibble → List Byte
  | hi :: lo :: rest => (hi ++ lo : BitVec (4 + 4)) :: bytesOfNibbles rest
  | _ => []

/-- The lowest position at which `pat` occurs in a sequence (R104, R106). -/
def findFirst {α : Type} [DecidableEq α] (pat : List α) : List α → Option Nat
  | [] => if pat = [] then some 0 else none
  | x :: xs => if (x :: xs).take pat.length = pat then some 0 else (findFirst pat xs).map (· + 1)

/-- `Find(B, T)` on the match grid (R104): a byte index, or a nibble index into `N(B)`. -/
def find (grid : MatchGrid) (bytes tag : List Byte) : Option Nat :=
  match grid with
  | .byte => findFirst tag bytes
  | .nibble => findFirst (nibbles tag) (nibbles bytes)

/-- `Complete(B, p, L)` (R104): at least L bytes stand from the position on. The comparison is written without a
subtraction, so that it is the spec's exact integer comparison at every position. -/
def complete (grid : MatchGrid) (bytes : List Byte) (pos len : Nat) : Bool :=
  match grid with
  | .byte => decide (pos + len ≤ bytes.length)
  | .nibble => decide (pos + 2 * len ≤ 2 * bytes.length)

/-- `Extract(B, p, L)` (R104; spec/20_memory.md R45): the L bytes from the position on. -/
def extract (grid : MatchGrid) (bytes : List Byte) (pos len : Nat) : List Byte :=
  match grid with
  | .byte => (bytes.drop pos).take len
  | .nibble => bytesOfNibbles (((nibbles bytes).drop pos).take (2 * len))

/-- What the scan answers (R104). -/
inductive ScanResult where
  | noMatch
  | wait (k : Kind) (pos : Nat)
  | full (k : Kind) (pos : Nat) (frame : List Byte)
deriving DecidableEq, Repr

/-- The scan's answer once kind `k` is selected at `pos` (R104): WAIT, or FULL with the extracted frame. -/
def resolveMatch (grid : MatchGrid) (bytes : List Byte) (k : Kind) (pos : Nat) : ScanResult :=
  if complete grid bytes pos k.length then .full k pos (extract grid bytes pos k.length)
  else .wait k pos

/-- The first kind of a list whose tag occurs anywhere, with its lowest position (R105, R106). -/
def selectAmong (grid : MatchGrid) (bytes : List Byte) : List Kind → Option (Kind × Nat)
  | [] => none
  | k :: ks =>
    match find grid bytes k.tag with
    | some pos => some (k, pos)
    | none => selectAmong grid bytes ks

/-- The kind the scan selects, in priority order, and its position (R105, R106). -/
def selectKind (grid : MatchGrid) (bytes : List Byte) : Option (Kind × Nat) :=
  selectAmong grid bytes Kind.priority

/-- `Scan(B)` (R104). -/
def scan (grid : MatchGrid) (bytes : List Byte) : ScanResult :=
  match selectKind grid bytes with
  | none => .noMatch
  | some (k, pos) => resolveMatch grid bytes k pos

end Sys2Proof.Machine
end

