-- ==== Sys2Proof/Machine/Flags.lean ====
section
/-! DEFINITION. The computed response fields: the CRC check (spec/41_crc.md R133 to R139), the overflow bit
(spec/20_memory.md R47), and the packed forms of a response (spec/30_encoding.md R65 to R68). -/

namespace Sys2Proof.Machine

/-! ### The CRC check -/

/-- `T[a]`: every index is in range, since the accumulator is 8 bits (R141). -/
def crcLookup (table : Vector Byte 256) (acc : Byte) : Byte := table[acc.toNat]'acc.isLt

/-- One accumulator update, `ACC <- T[ACC] ^ F[i]` (R136). -/
def crcUpdate (table : Vector Byte 256) (acc b : Byte) : Byte := crcLookup table acc ^^^ b

/-- The accumulator after the covered bytes, from 0 (R133, R28). -/
def crcAccumulate (table : Vector Byte 256) (covered : List Byte) : Byte :=
  covered.foldl (crcUpdate table) 0

/-- The result of `CrcCheck`: ok, reason, val (R133). -/
structure CrcResult where
  ok : Bool
  reason : CrcReason
  val : Byte
deriving DecidableEq, Repr

/-- `CrcCheck(F, L)` (R133): SHORT before RANGE before MISMATCH (R176). The covered bytes are `F[0..L-2)`, that is the
indices 0 to L-3 (R136), and the byte compared is `F[L-2]` (R137). -/
def crcCheck (table : Vector Byte 256) (bytes : List Byte) (len : Nat) : CrcResult :=
  if len < 3 then ⟨false, .short, 0⟩
  else if bytes.length < len - 1 then ⟨false, .range, 0⟩
  else
    let acc := crcAccumulate table (bytes.take (len - 2))
    if bytes[len - 2]? = some acc then ⟨true, .none, acc⟩ else ⟨false, .mismatch, acc⟩

/-- The candidate table of R131, by its closed form. ASSUMED there, from general knowledge and not in the source:
PRESUMED, entry 2. No meaning reads it; tests and statements that use it name it. -/
def candidateCrcTable : Vector Byte 256 :=
  Vector.mk ((List.range 256).map fun i =>
    BitVec.ofNat 8 (2 * i) ^^^ (if i < 128 then 0x00 else 0x19)).toArray (by simp)

/-! ### The overflow bit and the trim -/

/-- Whether a buffer exceeds the capacity (R47). -/
def overflows (cap : Option Nat) (bytes : List Byte) : Bool :=
  match cap with
  | none => false
  | some c => decide (c < bytes.length)

/-- The newest `BUF_CAP` bytes of a buffer that exceeds the capacity, and the buffer itself otherwise (R47). -/
def trimmed (cap : Option Nat) (bytes : List Byte) : List Byte :=
  match cap with
  | none => bytes
  | some c => bytes.drop (bytes.length - c)

/-! ### Packed responses -/

/-- The code of an event (R66). -/
def Event.code : Event → BitVec 4
  | .noMatch => 0
  | .wait => 1
  | .frameOk => 2
  | .frameBad => 3
  | .ignored => 4
  | .crcResult => 5
  | .ack => 6
  | .illegal => 15

/-- The code of a response's kind: the row index, or 7 for none (R68). -/
def kindCode : Option Kind → BitVec 3
  | none => 7
  | some k => BitVec.ofNat 3 k.index

/-- The code of a reason (R68). -/
def CrcReason.code : CrcReason → BitVec 2
  | .none => 0
  | .mismatch => 1
  | .short => 2
  | .range => 3

/-- The status word, format RESP_STATUS (R65): reserved bits 31:24, 15:13 and 7 are 0. -/
def statusWord (r : Response) : Word :=
  (0 : BitVec 8) ++ r.crcVal ++ (0 : BitVec 3) ++ r.crcReason.code ++ BitVec.ofBool r.crcOk ++
    BitVec.ofBool r.diag ++ BitVec.ofBool r.ovf ++ (0 : BitVec 1) ++ kindCode r.kind ++ r.evt.code

/-- The information word, format RESP_INFO (R67): MATCH_OFF in bits 31:16 and BUF_LEN in bits 15:0. It is defined
only while both are below 65536. -/
def infoWord (r : Response) : Option Word :=
  if r.bufLen < 65536 ∧ r.matchOff < 65536 then
    some (BitVec.ofNat 16 r.matchOff ++ BitVec.ofNat 16 r.bufLen)
  else none

/-- A packed response: the status word, the information word, the bytes of F in frame order (R67). -/
structure PackedResponse where
  status : Word
  info : Word
  frame : List Byte
deriving DecidableEq, Repr

/-- The packed form, where it is defined (R67, R22). -/
def packResponse (r : Response) : Option PackedResponse :=
  (infoWord r).map fun info => ⟨statusWord r, info, r.frame⟩

/-- A packed response on a byte-wide link: each word big-endian. DEDUCED from decision D2, which R61 states for the
command word only; entry 11. -/
def PackedResponse.linkBytes (p : PackedResponse) : List Byte :=
  bytesOfWord p.status ++ bytesOfWord p.info ++ p.frame

/-- How many bytes of F a reader of a packed response expects (R67): L of the kind for FRAME_OK, FRAME_BAD and
IGNORED, and 0 otherwise. -/
def expectedFrameLength (evt : Event) (kind : Option Kind) : Nat :=
  match evt, kind with
  | .frameOk, some k => k.length
  | .frameBad, some k => k.length
  | .ignored, some k => k.length
  | _, _ => 0

end Sys2Proof.Machine
end

