-- ==== Sys2Proof/Machine/Ops.lean ====
section
/-! DEFINITION. The named operations over the state (spec/00_scope.md R15) and the ILLEGAL answer, the block's one
refusal of a command (spec/60_exceptions.md R171). -/

namespace Sys2Proof.Machine

/-- `Append(C)`: `BUF <- BUF ++ C` (R15). -/
def State.append (s : State) (chunk : List Byte) : State := { s with buf := s.buf ++ chunk }

/-- `Clear()`: `BUF <- []` (R15). -/
def State.clear (s : State) : State := { s with buf := [] }

/-- `MemRead(a, n)`: `BUF[a..a+n)`, which needs `a + n <= |BUF|` (R15). -/
def State.memRead (s : State) (a n : Nat) : Option (List Byte) :=
  if a + n ≤ s.buf.length then some ((s.buf.drop a).take n) else none

/-- The byte of `BUF` at an index, where there is one (spec/20_memory.md R40). -/
def State.bufByte (s : State) (a : Nat) : Option Byte := s.buf[a]?

/-- The buffer part of `Trim()` (R47); the bit it answers is `overflows`. -/
def State.trim (s : State) : State := { s with buf := trimmed s.cfg.bufCap s.buf }

/-- `respond(r)`: the command ends with response `r` (R15, R64). -/
def State.respond (s : State) (r : Response) : State := { s with responses := s.responses ++ [r] }

/-- One output of the decoder port (spec/40_demux.md R112). -/
def State.driveDecoder (s : State) (d : DecoderOutput) : State :=
  { s with decoderOut := s.decoderOut ++ [d] }

/-- The command port after a command was taken from its front (spec/30_encoding.md R75). -/
def State.withCmdIn (s : State) (rest : List Byte) : State := { s with cmdIn := rest }

/-- A response whose fields no rule sets: 0, and KIND 7 (R64). -/
def Response.blank (evt : Event) (bufLen : Nat) : Response where
  evt := evt
  kind := none
  ovf := false
  diag := false
  crcOk := false
  crcReason := .none
  crcVal := 0
  bufLen := bufLen
  matchOff := 0
  frame := []

/-- `raise ILLEGAL_CMD` (R15, R171): no state is written, and the response is EVT 15 with KIND 7, every flag 0 and
the unchanged BUF_LEN. It is shared by every illegal command, and nothing returns from it: the next command starts
from the state the response left (R178). -/
def State.raiseIllegal (s : State) : State := s.respond (Response.blank .illegal s.buf.length)

/-- The response that ends RESET and FLUSH (spec/42_control.md R150, R151). -/
def State.acknowledge (s : State) : State := s.respond (Response.blank .ack s.buf.length)

end Sys2Proof.Machine
end

