-- ==== Sys2Proof/Machine/Control.lean ====
section
/-! DEFINITION. The control commands RESET and FLUSH (spec/42_control.md). -/

namespace Sys2Proof.Machine

/-- RESET (R150): `Clear()`, then ACK with BUF_LEN 0. -/
def execReset (s : State) : Host.Outcome State Fault Refusal := .next s.clear.acknowledge

/-- FLUSH (R151): `Clear()`, then ACK with BUF_LEN 0. -/
def execFlush (s : State) : Host.Outcome State Fault Refusal := .next s.clear.acknowledge

end Sys2Proof.Machine
end

