-- ==== Sys2Proof/Machine/Crc.lean ====
section
/-! DEFINITION. CRCQ, the stand-alone CRC check (spec/41_crc.md R140). -/

namespace Sys2Proof.Machine

/-- CRCQ (R140): answer `CrcCheck(P, L)`; no state is written and the decoder port is not driven. -/
def execCrcq (len : Nat) (payload : List Byte) (s : State) : Host.Outcome State Fault Refusal :=
  let c := crcCheck s.cfg.crcTable payload len
  .next (s.respond { Response.blank .crcResult s.buf.length with
    crcOk := c.ok, crcReason := c.reason, crcVal := c.val })

end Sys2Proof.Machine
end

