-- ==== Sys2Proof/Machine/Demux.lean ====
section
/-! DEFINITION. PUSH and what it runs: the signature rows and the diagnostic prefix row (spec/40_demux.md). -/

namespace Sys2Proof.Machine

/-! ### A selected signature -/

/-- The frame of kind `k` at `pos` is not complete (R107): WAIT; `BUF` is left intact. -/
def State.awaitFrame (s : State) (k : Kind) (pos : Nat) (ovf diag : Bool) : State :=
  s.respond { Response.blank .wait s.buf.length with
    kind := some k, ovf := ovf, diag := diag, matchOff := pos }

/-- A complete frame of the ignored kind (R108, R109): `BUF` is cleared, IGNORED carries the frame, no CRC check. -/
def State.ignoreFrame (s : State) (k : Kind) (pos : Nat) (ovf diag : Bool) (frame : List Byte) : State :=
  s.clear.respond { Response.blank .ignored 0 with
    kind := some k, ovf := ovf, diag := diag, matchOff := pos, frame := frame }

/-- A complete frame of a decoded kind (R108, R110, R112, R113): `BUF` is cleared, the frame is checked, and it goes
to the decoder port exactly when the check passes. -/
def State.checkFrame (s : State) (k : Kind) (pos : Nat) (ovf diag : Bool) (frame : List Byte) : State :=
  let c := crcCheck s.cfg.crcTable frame k.length
  let delivered := if c.ok then s.clear.driveDecoder ⟨k, k.length, frame⟩ else s.clear
  delivered.respond { Response.blank (if c.ok then .frameOk else .frameBad) 0 with
    kind := some k, ovf := ovf, diag := diag, crcOk := c.ok, crcReason := c.reason, crcVal := c.val,
    matchOff := pos, frame := frame }

/-- The WAIT and FULL cases of R100 for kind `k` selected at `pos`. -/
def State.serveMatch (s : State) (k : Kind) (pos : Nat) (ovf diag : Bool) : State :=
  match resolveMatch s.cfg.matchGrid s.buf k pos with
  | .noMatch => s
  | .wait k' pos' => s.awaitFrame k' pos' ovf diag
  | .full k' pos' frame =>
    match k'.action with
    | .ignore => s.ignoreFrame k' pos' ovf diag frame
    | .decode => s.checkFrame k' pos' ovf diag frame

/-- TAG_IGNORED_HEATER: kind 0 selected at `pos` (R109). -/
def execTagIgnoredHeater (pos : Nat) (ovf diag : Bool) (s : State) : Host.Outcome State Fault Refusal :=
  .next (s.serveMatch .ignoredHeater pos ovf diag)

/-- TAG_CH_STATUS: kind 1 selected at `pos` (R110). -/
def execTagChStatus (pos : Nat) (ovf diag : Bool) (s : State) : Host.Outcome State Fault Refusal :=
  .next (s.serveMatch .chStatus pos ovf diag)

/-- TAG_HC_STATUS: kind 2 selected at `pos` (R110). -/
def execTagHcStatus (pos : Nat) (ovf diag : Bool) (s : State) : Host.Outcome State Fault Refusal :=
  .next (s.serveMatch .hcStatus pos ovf diag)

/-- TAG_DHW_STATUS: kind 3 selected at `pos` (R110). -/
def execTagDhwStatus (pos : Nat) (ovf diag : Bool) (s : State) : Host.Outcome State Fault Refusal :=
  .next (s.serveMatch .dhwStatus pos ovf diag)

/-- TAG_DATETIME: kind 4 selected at `pos` (R110). -/
def execTagDatetime (pos : Nat) (ovf diag : Bool) (s : State) : Host.Outcome State Fault Refusal :=
  .next (s.serveMatch .datetime pos ovf diag)

/-- The row of the signature table the scan selected, run by its own meaning (R70, R77). -/
def runSignature (k : Kind) (pos : Nat) (ovf diag : Bool) (s : State) : Host.Outcome State Fault Refusal :=
  match k with
  | .ignoredHeater => execTagIgnoredHeater pos ovf diag s
  | .chStatus => execTagChStatus pos ovf diag s
  | .hcStatus => execTagHcStatus pos ovf diag s
  | .dhwStatus => execTagDhwStatus pos ovf diag s
  | .datetime => execTagDatetime pos ovf diag s

/-! ### The receive sequence -/

/-- No tag occurs in `BUF` (R111): NOMATCH; `BUF` is kept. -/
def State.reportNoMatch (s : State) (ovf diag : Bool) : State :=
  s.respond { Response.blank .noMatch s.buf.length with ovf := ovf, diag := diag }

/-- The rest of a PUSH after its append (R100, R103): the trim, exactly one scan, and what the scan selects. -/
def trimAndScan (diag : Bool) (s : State) : Host.Outcome State Fault Refusal :=
  let ovf := overflows s.cfg.bufCap s.buf
  let t := s.trim
  match selectKind t.cfg.matchGrid t.buf with
  | none => .next (t.reportNoMatch ovf diag)
  | some (k, pos) => runSignature k pos ovf diag t

/-- DIAG_PREFIX_HR: a PUSH whose chunk is `#HR` and then `rest` (R102). The chunk is appended only if `DIAG_APPEND`;
DIAG is 1 and the scan runs either way. A chunk above `CHUNK_MAX` is ILLEGAL before that (R101, R103). -/
def execDiagPrefixHr (rest : List Byte) (s : State) : Host.Outcome State Fault Refusal :=
  if s.cfg.chunkMax < rest.length + 3 then .next s.raiseIllegal
  else trimAndScan true (if s.cfg.diagAppend then s.append (diagTag ++ rest) else s)

/-- PUSH (R100): the legality check, the diagnostic test, the append, the trim, one scan, at most one consume, in
that order (R103). -/
def execPush (chunk : List Byte) (s : State) : Host.Outcome State Fault Refusal :=
  if s.cfg.chunkMax < chunk.length then .next s.raiseIllegal
  else if diagPrefix chunk then execDiagPrefixHr (chunk.drop 3) s
  else trimAndScan false (s.append chunk)

end Sys2Proof.Machine
end

