-- ==== Sys2Proof/Machine/Dispatch.lean ====
section
/-! DEFINITION. The one dispatch from instructions to their meanings. -/

namespace Sys2Proof.Machine

def exec (i : Instr) (s : State) : Host.Outcome State Fault Refusal :=
  match i with
  -- CMD rows
  | .reset => Sys2Proof.Machine.execReset s
  | .push chunk => Sys2Proof.Machine.execPush chunk s
  | .flush => Sys2Proof.Machine.execFlush s
  | .crcq len payload => Sys2Proof.Machine.execCrcq len payload s
  -- TAG32 rows
  | .tagIgnoredHeater pos ovf diag => Sys2Proof.Machine.execTagIgnoredHeater pos ovf diag s
  | .tagChStatus pos ovf diag => Sys2Proof.Machine.execTagChStatus pos ovf diag s
  | .tagHcStatus pos ovf diag => Sys2Proof.Machine.execTagHcStatus pos ovf diag s
  | .tagDhwStatus pos ovf diag => Sys2Proof.Machine.execTagDhwStatus pos ovf diag s
  | .tagDatetime pos ovf diag => Sys2Proof.Machine.execTagDatetime pos ovf diag s
  -- TAG24 row
  | .diagPrefixHr rest => Sys2Proof.Machine.execDiagPrefixHr rest s

end Sys2Proof.Machine
end

