-- ==== Sys2Proof/Machine/Step.lean ====
section
/-! DEFINITION. One step: take one command from the command port, run it, answer it. -/

namespace Sys2Proof.Machine

/-- One step (spec/00_scope.md R9, R11; spec/30_encoding.md R75): the command at the front of the command port is
taken whole and run. An illegal word is taken with its data bytes and answered ILLEGAL (R171). While no whole command
stands at the port the block waits and nothing changes (DESIGN CHOICE, entry 4). -/
def step (s : State) : Host.Outcome State Fault Refusal :=
  match decode .command s.cmdIn with
  | .incomplete => .next s
  | .rejected _ rest => .next (s.withCmdIn rest).raiseIllegal
  | .instr i rest => exec i (s.withCmdIn rest)

/-- An instance whose `CHUNK_MAX` admits a chunk of `n` bytes: an empty chunk needs nothing, and for any other the
bound is the largest that R12 allows. Only `State.withFetchWord` uses it; entry 9. -/
def admitChunk (cfg : Config) (n : Nat) : Config :=
  if n = 0 then cfg else { cfg with chunkMax := 65535 }

/-- `s` with a word of the opcode table placed where the next step runs it (the host's fixed name; entry 9). A CMD row
is put at the front of the command port. A TAG32 row is put into `BUF`, and a PUSH of no bytes at the front of the
port, so that the step's scan selects that row. The TAG24 row is the chunk of a PUSH at the front of the port. A PUSH
of some bytes needs an instance that admits them. -/
def State.withFetchWord (s : State) (nbits w : Nat) : State :=
  let v := w % 2 ^ nbits
  match tableSite nbits v with
  | none => s
  | some .command =>
    let bytes := commandBytes v
    { s with
      cfg := if v / 2 ^ 28 % 16 = 2 then admitChunk s.cfg (v % 2 ^ 16) else s.cfg
      cmdIn := bytes ++ s.cmdIn }
  | some (.signature _ _ _) =>
    { s with buf := bytesOfWord (BitVec.ofNat 32 v), cmdIn := encode (.push []) ++ s.cmdIn }
  | some .chunk =>
    { s with cfg := admitChunk s.cfg 3, cmdIn := encode (.push (bytesOfWord24 v)) ++ s.cmdIn }

end Sys2Proof.Machine
end

