-- ==== Sys2Proof/Machine/Asm.lean ====
section
/-! DEFINITION. The textual form of a command (spec/30_encoding.md R76; decision D27). Text is a list of characters.
DESIGN CHOICE, entry 14: words are separated by spaces, hex digits are upper case, and a line that is no command of R76
or does not fit its fields has no instruction. -/

namespace Sys2Proof.Machine

/-- The words of a line: its maximal runs of characters that are no space. -/
def splitWords : List Char → List (List Char)
  | [] => []
  | ' ' :: cs => splitWords cs
  | [c] => [[c]]
  | c :: d :: cs =>
    if d = ' ' then [c] :: splitWords (d :: cs)
    else
      match splitWords (d :: cs) with
      | w :: ws => (c :: w) :: ws
      | [] => [[c]]

/-- A decimal digit's value. -/
def decimalDigit (c : Char) : Option Nat :=
  if '0' ≤ c ∧ c ≤ '9' then some (c.toNat - '0'.toNat) else none

/-- An upper-case hex digit's value (R14). -/
def hexDigit (c : Char) : Option Nat :=
  if 'A' ≤ c ∧ c ≤ 'F' then some (c.toNat - 'A'.toNat + 10) else decimalDigit c

/-- The decimal digits of a number, read onto an accumulator. -/
def decimalFrom (acc : Nat) : List Char → Option Nat
  | [] => some acc
  | c :: cs =>
    match decimalDigit c with
    | some d => decimalFrom (10 * acc + d) cs
    | none => none

/-- A decimal number: at least one digit. -/
def decimal : List Char → Option Nat
  | [] => none
  | c :: cs => decimalFrom 0 (c :: cs)

/-- One item of a byte list: a byte `<b>`, or the pseudo-form `<b>*<k>` for `k` copies of it (R76). -/
def byteItem : List Char → Option (List Byte)
  | hi :: lo :: tail =>
    match hexDigit hi, hexDigit lo with
    | some h, some l =>
      match tail with
      | [] => some [BitVec.ofNat 8 (16 * h + l)]
      | '*' :: count => (decimal count).map fun k => List.replicate k (BitVec.ofNat 8 (16 * h + l))
      | _ => none
    | _, _ => none
  | _ => none

/-- The bytes of a list of items. -/
def byteItems : List (List Char) → Option (List Byte)
  | [] => some []
  | w :: ws =>
    match byteItem w, byteItems ws with
    | some b, some bs => some (b ++ bs)
    | _, _ => none

/-- The command of a line's words (R76). -/
def assembleWords : List (List Char) → Option Instr
  | [['R', 'E', 'S', 'E', 'T']] => some .reset
  | [['F', 'L', 'U', 'S', 'H']] => some .flush
  | ['P', 'U', 'S', 'H'] :: items => (byteItems items).map .push
  | ['C', 'R', 'C', 'Q'] :: len :: [':'] :: items =>
    match decimal len, byteItems items with
    | some l, some p => some (.crcq l p)
    | _, _ => none
  | _ => none

/-- The instruction of a line of assembler text, where the line is a command whose operands fit (R60, R76). -/
def assemble (line : List Char) : Option Instr :=
  match assembleWords (splitWords line) with
  | some i => if i.wf then some i else none
  | none => none

/-- An upper-case hex digit. -/
def hexChar (n : Nibble) : Char :=
  if n.toNat < 10 then Char.ofNat ('0'.toNat + n.toNat) else Char.ofNat ('A'.toNat + n.toNat - 10)

/-- A byte as a space and two upper-case hex digits (R14). -/
def byteText (b : Byte) : List Char :=
  [' ', hexChar (b.extractLsb' 4 4), hexChar (b.extractLsb' 0 4)]

/-- The text of a PUSH of a chunk (R76). -/
def pushText (chunk : List Byte) : List Char := ['P', 'U', 'S', 'H'] ++ chunk.flatMap byteText

end Sys2Proof.Machine
end

