-- ==== Sys2Proof/Machine/FieldMap.lean ====
section
/-! DEFINITION. The layout of a frame (spec/30_encoding.md R71) and the decoders' field map (R72). The field map is
informative: the decoders are out of scope (spec/00_scope.md R7), and no meaning of the block reads it. -/

namespace Sys2Proof.Machine

/-- Index of the CRC byte, `L-2` (R71). -/
def crcIndex (k : Kind) : Nat := k.length - 2

/-- Index of the reserved trailer, `L-1` (R71). -/
def trailerIndex (k : Kind) : Nat := k.length - 1

/-- One row of the field map: the bytes `first` to `last` of a frame, both inclusive, the bits of them that the row
names (0 for all), and the source's name. -/
structure FieldRow where
  kind : Kind
  first : Nat
  last : Nat
  mask : Nat
  name : String
deriving DecidableEq, Repr

/-- The rows of CH_STATUS (R72). -/
def chFields : List FieldRow := [
  ⟨.chStatus, 4, 4, 0, "flow-desired temperature, whole degrees"⟩,
  ⟨.chStatus, 5, 6, 0, "flow-measured temperature, tenths"⟩,
  ⟨.chStatus, 8, 8, 0, "burner power percent"⟩,
  ⟨.chStatus, 9, 9, 0x03, "mode"⟩,
  ⟨.chStatus, 9, 9, 0x08, "burner-operation flag"⟩,
  ⟨.chStatus, 11, 11, 0x20, "pump-heating"⟩,
  ⟨.chStatus, 11, 11, 0x40, "pump-cylinder"⟩,
  ⟨.chStatus, 11, 11, 0x80, "pump-circulation"⟩,
  ⟨.chStatus, 11, 11, 0x01, "burner-fan"⟩,
  ⟨.chStatus, 13, 14, 0, "mixer temperature, tenths"⟩,
  ⟨.chStatus, 22, 22, 0, "raw error-code byte, first"⟩,
  ⟨.chStatus, 23, 23, 0, "raw error-code byte, second"⟩,
  ⟨.chStatus, 24, 25, 0, "combined error code"⟩]

/-- The rows of HC_STATUS (R72). -/
def hcFields : List FieldRow := [
  ⟨.hcStatus, 6, 6, 0, "mode"⟩,
  ⟨.hcStatus, 7, 7, 0, "auto-flag"⟩,
  ⟨.hcStatus, 8, 9, 0, "desired temperature, tenths"⟩,
  ⟨.hcStatus, 10, 11, 0, "measured temperature, tenths"⟩]

/-- The rows of DHW_STATUS (R72). -/
def dhwFields : List FieldRow := [
  ⟨.dhwStatus, 4, 4, 0, "desired temperature, whole degrees"⟩,
  ⟨.dhwStatus, 5, 6, 0, "measured temperature, tenths"⟩,
  ⟨.dhwStatus, 7, 8, 0, "cylinder temperature, tenths"⟩,
  ⟨.dhwStatus, 9, 9, 0x02, "charge-once"⟩,
  ⟨.dhwStatus, 9, 9, 0x04, "thermal-disinfection"⟩,
  ⟨.dhwStatus, 9, 9, 0x08, "generating"⟩,
  ⟨.dhwStatus, 9, 9, 0x10, "boost-charge"⟩,
  ⟨.dhwStatus, 9, 9, 0x20, "temperature-ok"⟩,
  ⟨.dhwStatus, 14, 16, 0, "running-time counter"⟩,
  ⟨.dhwStatus, 17, 19, 0, "start counter"⟩]

/-- The rows of DATETIME (R72). -/
def datetimeFields : List FieldRow := [
  ⟨.datetime, 4, 4, 0, "year less 2000"⟩,
  ⟨.datetime, 5, 5, 0, "month"⟩,
  ⟨.datetime, 6, 6, 0, "hours"⟩,
  ⟨.datetime, 7, 7, 0, "day"⟩,
  ⟨.datetime, 8, 8, 0, "minute"⟩,
  ⟨.datetime, 9, 9, 0, "second"⟩]

/-- The whole field map (R72). -/
def fieldMap : List FieldRow := chFields ++ hcFields ++ dhwFields ++ datetimeFields

/-- A big-endian unsigned integer (spec/20_memory.md R42). -/
def bigEndian (bytes : List Byte) : Nat := bytes.foldl (fun acc b => 256 * acc + b.toNat) 0

/-- The raw value of a field in a frame, before any division (R42, R72). -/
def FieldRow.raw (row : FieldRow) (frame : List Byte) : Nat :=
  let v := bigEndian ((frame.drop row.first).take (row.last + 1 - row.first))
  if row.mask = 0 then v else v &&& row.mask

end Sys2Proof.Machine
end

