-- ==== Sys2Proof/Safety.lean ====
section
/-! DEFINITION. What a run shows, what holds between commands, and the host's duties (spec/10_state.md R20, R23;
spec/30_encoding.md R66 to R68; spec/70_reset_and_hazards.md R194 to R204). -/

namespace Sys2Proof.Machine

/-! ### Between commands -/

/-- The buffer holds no complete frame of the selected kind (R23): it is empty, or its scan answers NOMATCH or WAIT. -/
def settledBuf (grid : MatchGrid) (bytes : List Byte) : Prop :=
  bytes = [] ∨ scan grid bytes = .noMatch ∨ ∃ k pos, scan grid bytes = .wait k pos

/-- R23 of a state. -/
def State.Settled (s : State) : Prop := settledBuf s.cfg.matchGrid s.buf

/-- `|BUF| <= BUF_CAP` (R20), for every length when the capacity is `INF`. -/
def State.WithinCap (s : State) : Prop := ∀ cap, s.cfg.bufCap = some cap → s.buf.length ≤ cap

/-- A response of one of the shapes the spec gives its event: R114 for PUSH, R140 for CRCQ, R150 and R151 for ACK,
R171 for ILLEGAL, with the frame length of R67 and the reason codes of R68. -/
def Response.Lawful (r : Response) : Prop :=
  r.frame.length = expectedFrameLength r.evt r.kind ∧
  (r.crcOk = true → r.crcReason = .none) ∧
  match r.evt with
  | .noMatch => r.kind = none ∧ r.crcOk = false ∧ r.crcReason = .none ∧ r.crcVal = 0 ∧ r.matchOff = 0
  | .wait => r.kind ≠ none ∧ r.crcOk = false ∧ r.crcReason = .none ∧ r.crcVal = 0
  | .frameOk => (∃ k, r.kind = some k ∧ k ≠ .ignoredHeater) ∧ r.crcOk = true ∧ r.bufLen = 0
  | .frameBad =>
      (∃ k, r.kind = some k ∧ k ≠ .ignoredHeater) ∧ r.crcOk = false ∧ r.crcReason = .mismatch ∧ r.bufLen = 0
  | .ignored =>
      r.kind = some .ignoredHeater ∧ r.crcOk = false ∧ r.crcReason = .none ∧ r.crcVal = 0 ∧ r.bufLen = 0
  | .crcResult =>
      r.kind = none ∧ r.ovf = false ∧ r.diag = false ∧ r.matchOff = 0 ∧ (r.crcOk = false → r.crcReason ≠ .none)
  | .ack => r = Response.blank .ack 0
  | .illegal => r = Response.blank .illegal r.bufLen

/-- A command word is legal (R69). -/
def legalWord (cfg : Config) (w : Word) : Prop :=
  ((opField w = 1 ∨ opField w = 3) ∧ argField w = 0 ∧ countField w = 0) ∨
  (opField w = 2 ∧ argField w = 0 ∧ (countField w).toNat ≤ cfg.chunkMax) ∨
  opField w = 4

/-- The whole command of word `w` and data bytes `data` stands at the front of the command port (R61, R75). -/
def State.presents (s : State) (w : Word) (data rest : List Byte) : Prop :=
  data.length = (countField w).toNat ∧ s.cmdIn = bytesOfWord w ++ data ++ rest

/-- The ILLEGAL answer, field by field (R171): nothing is written but the response, whose BUF_LEN is unchanged. -/
def State.illegalAnswer (s : State) : State :=
  { s with responses := s.responses ++ [⟨.illegal, none, false, false, false, .none, 0, s.buf.length, 0, []⟩] }

/-- The table of R114, row by row: what a legal PUSH leaves, given its DIAG and the buffer `received` before the trim.
`kept` is the buffer the scan sees. -/
def State.pushOutcome (s : State) (diag : Bool) (received : List Byte) : State :=
  let kept := trimmed s.cfg.bufCap received
  let ovf := overflows s.cfg.bufCap received
  match scan s.cfg.matchGrid kept with
  | .noMatch =>
    { s with
      buf := kept
      responses := s.responses ++ [⟨.noMatch, none, ovf, diag, false, .none, 0, kept.length, 0, []⟩] }
  | .wait k pos =>
    { s with
      buf := kept
      responses := s.responses ++ [⟨.wait, some k, ovf, diag, false, .none, 0, kept.length, pos, []⟩] }
  | .full k pos frame =>
    if k = .ignoredHeater then
      { s with
        buf := []
        responses := s.responses ++ [⟨.ignored, some k, ovf, diag, false, .none, 0, 0, pos, frame⟩] }
    else
      let acc := (crcCheck s.cfg.crcTable frame k.length).val
      if (crcCheck s.cfg.crcTable frame k.length).ok then
        { s with
          buf := []
          decoderOut := s.decoderOut ++ [⟨k, k.length, frame⟩]
          responses := s.responses ++ [⟨.frameOk, some k, ovf, diag, true, .none, acc, 0, pos, frame⟩] }
      else
        { s with
          buf := []
          responses := s.responses ++ [⟨.frameBad, some k, ovf, diag, false, .mismatch, acc, 0, pos, frame⟩] }

/-! ### What a run shows -/

/-- The observation of a run (R194): the responses, the decoder-port outputs and the final `BUF`. -/
structure Observation where
  responses : List Response
  decoderOut : List DecoderOutput
  buf : List Byte
deriving DecidableEq, Repr

/-- What is observed of a run that ended in `s` (R194). -/
def State.observation (s : State) : Observation := ⟨s.responses, s.decoderOut, s.buf⟩

/-- The response fields that a finite `BUF_CAP` cannot change (R204): all but OVF, BUF_LEN and MATCH_OFF. -/
structure CapacityFreeFields where
  evt : Event
  kind : Option Kind
  diag : Bool
  crcOk : Bool
  crcReason : CrcReason
  crcVal : Byte
  frame : List Byte
deriving DecidableEq, Repr

/-- The fields of a response that a finite `BUF_CAP` cannot change (R204). -/
def Response.capacityFree (r : Response) : CapacityFreeFields :=
  ⟨r.evt, r.kind, r.diag, r.crcOk, r.crcReason, r.crcVal, r.frame⟩

/-- The bounded block beside the unbounded one (R204): the same configuration but for `BUF_CAP`, the same bytes at
the command port, the newest `cap` bytes of the same buffer, the same decoder outputs, and the same responses but for
OVF, BUF_LEN and MATCH_OFF. -/
def State.BoundedTwin (cap : Nat) (bounded unbounded : State) : Prop :=
  unbounded.cfg.bufCap = none ∧
  bounded.cfg = { unbounded.cfg with bufCap := some cap } ∧
  bounded.cmdIn = unbounded.cmdIn ∧
  bounded.buf = trimmed (some cap) unbounded.buf ∧
  bounded.decoderOut = unbounded.decoderOut ∧
  bounded.responses.map Response.capacityFree = unbounded.responses.map Response.capacityFree

/-! ### The host's side -/

/-- A command sequence as the byte link carries it (R61, R75). -/
def commandStream (cmds : List Instr) : List Byte := cmds.flatMap encode

/-- The host's duty of R200: no PUSH above `CHUNK_MAX`. -/
def keepsChunkDuty (cfg : Config) (i : Instr) : Bool :=
  match i with
  | .push chunk => decide (chunk.length ≤ cfg.chunkMax)
  | _ => true

/-- The host's duty of R197 at `stop()`: the last command is FLUSH. -/
def endsWithFlush (cmds : List Instr) : Bool := cmds.getLast? == some .flush

/-- A cut of a byte stream into chunks (R198, R195): the chunks in order are the stream, each at most `CHUNK_MAX`. -/
def IsChunking (cfg : Config) (stream : List Byte) (chunks : List (List Byte)) : Prop :=
  chunks.flatten = stream ∧ ∀ c ∈ chunks, c.length ≤ cfg.chunkMax

/-- The meanings of a command sequence run in order, without the command port (R49). -/
def execAll : List Instr → State → Host.Outcome State Fault Refusal
  | [], s => .next s
  | i :: is, s =>
    match exec i s with
    | .next t => execAll is t
    | .fault r => .fault r
    | .refused r => .refused r

/-! ### CRC tables -/

/-- The table is a permutation of 0 to 255, said by no two entries being equal (spec/41_crc.md R132). -/
def tableInjective (table : Vector Byte 256) : Prop :=
  ∀ a b, crcLookup table a = crcLookup table b → a = b

/-- The source's property of R132: no single-bit error in the covered bytes passes the check. -/
def detectsBitErrors (table : Vector Byte 256) : Prop :=
  ∀ bytes len i j, i + 3 ≤ len → j < 8 → (crcCheck table bytes len).ok = true →
    (crcCheck table (bytes.modify i (fun b => b ^^^ BitVec.ofNat 8 (2 ^ j))) len).ok = false

end Sys2Proof.Machine
end

