-- ==== Sys2Proof/Certificates/Slice0/Obligations.lean ====
section
/-! DEFINITION. The statements for the provers. Each docstring names the rule of spec/ it formalises. -/

open Sys2Proof Sys2Proof.Machine

/-! ### Encoding -/

/-- R61 to R63, R75: every well-formed command is read back whole from the command port, and exactly its bytes are
taken. -/
def Obligations.CommandDecodeOfEncode : Prop :=
  ∀ (i : Instr) (rest : List Byte), i.isCommand = true → i.wf = true →
    decode .command (encode i ++ rest) = .instr i rest

/-- R61 to R63, R70, R73, R77: every well-formed instruction of every format is read back from its own bytes. -/
def Obligations.EveryFormatDecodeOfEncode : Prop :=
  ∀ i : Instr, i.wf = true → decode i.site (encode i) = .instr i []

/-- R61 to R63, R69, R75: whatever the command decoder accepts is the encoding of a well-formed command, followed by
the bytes it leaves. -/
def Obligations.CommandEncodeOfDecode : Prop :=
  ∀ (bytes rest : List Byte) (i : Instr), decode .command bytes = .instr i rest →
    bytes = encode i ++ rest ∧ i.isCommand = true ∧ i.wf = true

/-- R61, R63: the three fields of a command word are its bits 31:28, 27:16 and 15:0, and the byte link carries the
word's bytes from bits 31:24 down. -/
def Obligations.CommandWordFields : Prop :=
  ∀ w : Word,
    w.toNat = (opField w).toNat * 2 ^ 28 + (argField w).toNat * 2 ^ 16 + (countField w).toNat ∧
    (bytesOfWord w).map BitVec.toNat =
      [w.toNat / 2 ^ 24, w.toNat / 2 ^ 16 % 256, w.toNat / 2 ^ 8 % 256, w.toNat % 256]

/-- R75: the command stream stays in step. A command word with its N data bytes is taken whole, legal or not, and a
command with fewer bytes than that is not taken. -/
def Obligations.CommandStreamStaysInStep : Prop :=
  (∀ (w : Word) (data rest : List Byte), data.length = (countField w).toNat →
    (∃ i, decode .command (bytesOfWord w ++ data ++ rest) = .instr i rest) ∨
    (∃ why, decode .command (bytesOfWord w ++ data ++ rest) = .rejected why rest)) ∧
  (∀ (w : Word) (data : List Byte), data.length < (countField w).toNat →
    decode .command (bytesOfWord w ++ data) = .incomplete) ∧
  (∀ bytes : List Byte, bytes.length < 4 → decode .command bytes = .incomplete)

/-- R62, R70, R73: instructions read from bytes written out from the spec's tables. -/
def Obligations.SpelledOutBytesDecode : Prop :=
  decode .command [0x10, 0x00, 0x00, 0x00] = .instr .reset [] ∧
  decode .command [0x20, 0x00, 0x00, 0x02, 0x88, 0x00, 0x99] = .instr (.push [0x88, 0x00]) [0x99] ∧
  decode .command [0x30, 0x00, 0x00, 0x00] = .instr .flush [] ∧
  decode .command [0x40, 0x0E, 0x00, 0x01, 0x5A] = .instr (.crcq 14 [0x5A]) [] ∧
  decode (.signature 3 true false) [0x88, 0x00, 0x20, 0x00] = .instr (.tagIgnoredHeater 3 true false) [] ∧
  decode (.signature 0 false true) [0x88, 0x00, 0x18, 0x00] = .instr (.tagChStatus 0 false true) [] ∧
  decode (.signature 1 false false) [0x90, 0x00, 0xFF, 0x00] = .instr (.tagHcStatus 1 false false) [] ∧
  decode (.signature 2 true true) [0x88, 0x00, 0x34, 0x00] = .instr (.tagDhwStatus 2 true true) [] ∧
  decode (.signature 9 false false) [0x90, 0x00, 0x06, 0x00] = .instr (.tagDatetime 9 false false) [] ∧
  decode .chunk [0x23, 0x48, 0x52, 0x20] = .instr (.diagPrefixHr [0x20]) []

/-- R65: the status word's fields stand at their bits, and its reserved bits read 0. The codes in them have the values
of the tables of R66 (EVT) and R68 (KIND, CRC_REASON), and the kinds the row numbers of R70. -/
def Obligations.StatusWordLayout : Prop :=
  (∀ r : Response,
    (statusWord r).extractLsb' 0 4 = r.evt.code ∧
    (statusWord r).extractLsb' 4 3 = kindCode r.kind ∧
    (statusWord r).extractLsb' 7 1 = 0 ∧
    (statusWord r).extractLsb' 8 1 = BitVec.ofBool r.ovf ∧
    (statusWord r).extractLsb' 9 1 = BitVec.ofBool r.diag ∧
    (statusWord r).extractLsb' 10 1 = BitVec.ofBool r.crcOk ∧
    (statusWord r).extractLsb' 11 2 = r.crcReason.code ∧
    (statusWord r).extractLsb' 13 3 = 0 ∧
    (statusWord r).extractLsb' 16 8 = r.crcVal ∧
    (statusWord r).extractLsb' 24 8 = 0) ∧
  (Event.code .noMatch = 0 ∧ Event.code .wait = 1 ∧ Event.code .frameOk = 2 ∧ Event.code .frameBad = 3 ∧
    Event.code .ignored = 4 ∧ Event.code .crcResult = 5 ∧ Event.code .ack = 6 ∧ Event.code .illegal = 15) ∧
  (kindCode (some .ignoredHeater) = 0 ∧ kindCode (some .chStatus) = 1 ∧ kindCode (some .hcStatus) = 2 ∧
    kindCode (some .dhwStatus) = 3 ∧ kindCode (some .datetime) = 4 ∧ kindCode none = 7) ∧
  (Kind.index .ignoredHeater = 0 ∧ Kind.index .chStatus = 1 ∧ Kind.index .hcStatus = 2 ∧
    Kind.index .dhwStatus = 3 ∧ Kind.index .datetime = 4) ∧
  (CrcReason.code .none = 0 ∧ CrcReason.code .mismatch = 1 ∧ CrcReason.code .short = 2 ∧
    CrcReason.code .range = 3)

/-- R65 to R68: equal status words come from responses that agree in every field the word packs. -/
def Obligations.StatusWordLosesNothing : Prop :=
  ∀ r r' : Response, statusWord r = statusWord r' →
    r.evt = r'.evt ∧ r.kind = r'.kind ∧ r.ovf = r'.ovf ∧ r.diag = r'.diag ∧
    r.crcOk = r'.crcOk ∧ r.crcReason = r'.crcReason ∧ r.crcVal = r'.crcVal

/-- R67: a packed response exists exactly while BUF_LEN and MATCH_OFF are below 65536, and then its information word
holds them in bits 15:0 and 31:16, between the status word and the frame bytes. -/
def Obligations.PackedResponseLayout : Prop :=
  (∀ r : Response, (packResponse r).isSome = true ↔ r.bufLen < 65536 ∧ r.matchOff < 65536) ∧
  (∀ (r : Response) (p : PackedResponse), packResponse r = some p →
    p.status = statusWord r ∧ p.frame = r.frame ∧
    (p.info.extractLsb' 0 16).toNat = r.bufLen ∧ (p.info.extractLsb' 16 16).toNat = r.matchOff)

/-- R76: the text of a PUSH, two upper-case hex digits a byte, is read as that PUSH. -/
def Obligations.PushTextAssembles : Prop :=
  ∀ chunk : List Byte, chunk.length ≤ 65535 → assemble (pushText chunk) = some (.push chunk)

/-- R72: every field of the informative field map lies in the body of its kind, between the tag and the CRC byte. -/
def Obligations.FieldMapLiesInBody : Prop :=
  ∀ row ∈ fieldMap, 4 ≤ row.first ∧ row.first ≤ row.last ∧ row.last ≤ row.kind.length - 3

/-! ### The step -/

/-- R9, R75: when the bytes at the command port begin with a whole command, a step is that command's meaning at the
state whose command port has lost exactly those bytes. -/
def Obligations.StepRunsDecodedCommand : Prop :=
  ∀ (s : State) (i : Instr) (rest : List Byte), decode .command s.cmdIn = .instr i rest →
    step s = exec i { s with cmdIn := rest }

/-- The model's choice of entry 4, not a rule: while no whole command stands at the port, nothing changes. -/
def Obligations.StepWaitsForWholeCommand : Prop :=
  ∀ s : State, decode .command s.cmdIn = .incomplete → step s = .next s

/-- R170, R64, R9, and the model's choice of entry 4: no step stops the machine. It answers one response, appended to
those before; or, while no whole command stands at the port, it waits with the state unchanged, which is no rule of the
spec but the choice of entry 4. -/
def Obligations.StepNeverStops : Prop :=
  ∀ s : State, ∃ t, step s = .next t ∧
    ((decode .command s.cmdIn = .incomplete ∧ t = s) ∨ ∃ r, t.responses = s.responses ++ [r])

/-- R64, R170 and R179 for the four commands, and the model's readings for the rest: every instruction in every state
completes with exactly one response, and leaves the configuration and the bytes at the command port as they were. That
the signature rows and the prefix row run on their own, at any position, is the reading of entries 7 and 8; that RESET
and FLUSH leave the bytes at the port is entry 4. -/
def Obligations.EveryInstructionAnswersOnce : Prop :=
  ∀ (i : Instr) (s : State), ∃ t r, exec i s = .next t ∧ t.responses = s.responses ++ [r] ∧
    t.cfg = s.cfg ∧ t.cmdIn = s.cmdIn

/-- R9, R49, R75, over the model's command port (entry 4): a command sequence at the command port runs one command a
step, in order, each from the state the one before left, and leaves the bytes after the sequence. That several commands
may stand at the port at once, and that RESET and FLUSH leave those behind them there, is entry 4. -/
def Obligations.CommandStreamRunsInOrder : Prop :=
  ∀ (cmds : List Instr) (s : State) (rest : List Byte),
    (∀ i ∈ cmds, i.isCommand = true ∧ i.wf = true) →
    Host.Core.run Sys2Proof.core cmds.length { s with cmdIn := commandStream cmds ++ rest } =
      execAll cmds { s with cmdIn := rest }

/-- R26, R30, R31: no instruction reads an earlier output. From two states with the same configuration and buffer,
each instruction leaves the same buffer, answers the same response and drives the decoder port alike, whatever the
two states answered before. -/
def Obligations.OutputsAreNeverRead : Prop :=
  ∀ (i : Instr) (s u : State), s.cfg = u.cfg → s.buf = u.buf →
    ∃ s' u' r ds, exec i s = .next s' ∧ exec i u = .next u' ∧ s'.buf = u'.buf ∧
      s'.responses = s.responses ++ [r] ∧ u'.responses = u.responses ++ [r] ∧
      s'.decoderOut = s.decoderOut ++ ds ∧ u'.decoderOut = u.decoderOut ++ ds

/-! ### Legality -/

/-- R69, R152: a whole command at the port is answered ILLEGAL exactly when its word is not legal. -/
def Obligations.IllegalExactlyWhenNotLegal : Prop :=
  ∀ (s : State) (w : Word) (data rest : List Byte), s.presents w data rest →
    (step s = .next { s with cmdIn := rest }.illegalAnswer ↔ ¬ legalWord s.cfg w)

/-- R171: an illegal command writes no state, drives no decoder output, has its N data bytes consumed, and is
answered by the ILLEGAL response, whose packed status word is 0000007F. -/
def Obligations.IllegalCommandAnswer : Prop :=
  ∀ (s : State) (w : Word) (data rest : List Byte), s.presents w data rest → ¬ legalWord s.cfg w →
    ∃ t r, step s = .next t ∧ t.cfg = s.cfg ∧ t.buf = s.buf ∧ t.cmdIn = rest ∧ t.decoderOut = s.decoderOut ∧
      t.responses = s.responses ++ [r] ∧
      r = ⟨.illegal, none, false, false, false, .none, 0, s.buf.length, 0, []⟩ ∧ statusWord r = 0x0000007F

/-- R101: a PUSH above `CHUNK_MAX` or with a non-zero ARG is answered ILLEGAL and its data bytes are discarded; a
PUSH of exactly `CHUNK_MAX` bytes is legal. -/
def Obligations.PushLegality : Prop :=
  ∀ (s : State) (w : Word) (data rest : List Byte), s.presents w data rest → opField w = 2 →
    ((s.cfg.chunkMax < (countField w).toNat ∨ argField w ≠ 0) →
      step s = .next { s with cmdIn := rest }.illegalAnswer) ∧
    ((countField w).toNat = s.cfg.chunkMax ∧ argField w = 0 →
      step s = exec (.push data) { s with cmdIn := rest } ∧
      step s ≠ .next { s with cmdIn := rest }.illegalAnswer)

/-! ### Control commands and reset -/

/-- R150: RESET empties `BUF` and answers ACK in every state, its word is 10000000, and a RESET word with a non-zero
ARG or N is answered ILLEGAL. -/
def Obligations.ResetCommand : Prop :=
  (∀ s : State, exec .reset s = .next { s with
    buf := []
    responses := s.responses ++ [⟨.ack, none, false, false, false, .none, 0, 0, 0, []⟩] }) ∧
  (∀ rest : List Byte, decode .command ([0x10, 0x00, 0x00, 0x00] ++ rest) = .instr .reset rest) ∧
  (∀ (s : State) (w : Word) (data rest : List Byte), s.presents w data rest → opField w = 1 →
    argField w ≠ 0 ∨ countField w ≠ 0 → step s = .next { s with cmdIn := rest }.illegalAnswer)

/-- R151: FLUSH empties `BUF` and answers ACK in every state, its word is 30000000, a FLUSH word with a non-zero ARG
or N is answered ILLEGAL, and its effect is that of RESET. -/
def Obligations.FlushCommand : Prop :=
  (∀ s : State, exec .flush s = .next { s with
    buf := []
    responses := s.responses ++ [⟨.ack, none, false, false, false, .none, 0, 0, 0, []⟩] }) ∧
  (∀ rest : List Byte, decode .command ([0x30, 0x00, 0x00, 0x00] ++ rest) = .instr .flush rest) ∧
  (∀ (s : State) (w : Word) (data rest : List Byte), s.presents w data rest → opField w = 3 →
    argField w ≠ 0 ∨ countField w ≠ 0 → step s = .next { s with cmdIn := rest }.illegalAnswer) ∧
  (∀ s : State, exec .flush s = exec .reset s)

/-- R190, its first sentence and table: after power-on and after RESET the buffer is empty, and RESET leaves the
configuration, with its table, unchanged. -/
def Obligations.ResetState : Prop :=
  (∀ cfg : Config, (State.powerOn cfg).buf = [] ∧ (State.powerOn cfg).cfg = cfg) ∧ State.reset.buf = [] ∧
  (∀ s t : State, exec .reset s = .next t → t.buf = [] ∧ t.cfg = s.cfg)

/-- R12, R192: the built instance keeps the spec's constraints, whatever the two open parameters are, and has the
spec's defaults for the others. -/
def Obligations.BuiltConfigurationIsLegal : Prop :=
  State.reset.cfg.legal = true ∧ State.reset.cfg.bufCap = none ∧ State.reset.cfg.matchGrid = .byte ∧
    State.reset.cfg.diagAppend = false

/-- R191, over the model's output histories (entry 5): after a RESET every command sequence runs as from power-on of the
same configuration; nothing else of the state before shows in the buffer or in any later output. That the responses and
decoder outputs given before the RESET stay in the histories, before the new ones, is the choice of entry 5. -/
def Obligations.NothingSurvivesReset : Prop :=
  ∀ (s t : State) (cmds : List Instr), execAll (.reset :: cmds) s = .next t →
    ∃ u r, execAll cmds (State.powerOn s.cfg) = .next u ∧ t.cfg = u.cfg ∧ t.buf = u.buf ∧
      t.responses = s.responses ++ r :: u.responses ∧ t.decoderOut = s.decoderOut ++ u.decoderOut

/-! ### The CRC check -/

/-- R133 to R137: the check, against an accumulator sequence written out step by step. SHORT below three bytes,
RANGE when the payload ends before the CRC byte, and otherwise the comparison of the accumulator after bytes 0 to
L-3 with byte L-2. -/
def Obligations.CrcCheckMeaning : Prop :=
  ∀ (table : Vector Byte 256) (bytes : List Byte) (len : Nat),
    (len < 3 → crcCheck table bytes len = ⟨false, .short, 0⟩) ∧
    (3 ≤ len → bytes.length < len - 1 → crcCheck table bytes len = ⟨false, .range, 0⟩) ∧
    (3 ≤ len → len - 1 ≤ bytes.length → ∀ acc : Nat → Byte, acc 0 = 0 →
      (∀ i, i ≤ len - 3 → acc (i + 1) = crcLookup table (acc i) ^^^ bytes.getD i 0) →
      (bytes.getD (len - 2) 0 = acc (len - 2) → crcCheck table bytes len = ⟨true, .none, acc (len - 2)⟩) ∧
      (bytes.getD (len - 2) 0 ≠ acc (len - 2) →
        crcCheck table bytes len = ⟨false, .mismatch, acc (len - 2)⟩))

/-- Derived in the spec from R133 and R137 ("Extra bytes", spec/41_crc.md section 2): bytes after the declared
length change nothing, and the check runs in full without the reserved trailer. -/
def Obligations.CrcIgnoresExtraBytes : Prop :=
  (∀ (table : Vector Byte 256) (bytes : List Byte) (len : Nat), len < bytes.length →
    crcCheck table bytes len = crcCheck table (bytes.take len) len) ∧
  (∀ (table : Vector Byte 256) (bytes tail : List Byte) (len : Nat), 3 ≤ len → bytes.length = len - 1 →
    crcCheck table bytes len = crcCheck table (bytes ++ tail) len ∧
    (crcCheck table bytes len).reason ≠ .range)

/-- R137, R142 item 1: the reserved trailer is never read. -/
def Obligations.CrcTrailerIsNotRead : Prop :=
  ∀ (table : Vector Byte 256) (bytes : List Byte) (len : Nat) (b : Byte),
    crcCheck table (bytes.set (len - 1) b) len = crcCheck table bytes len

/-- R142 item 2: changing only the CRC byte of a frame that passes gives MISMATCH with the same accumulator. -/
def Obligations.CrcByteChangeIsMismatch : Prop :=
  ∀ (table : Vector Byte 256) (bytes : List Byte) (len : Nat) (b : Byte),
    (crcCheck table bytes len).ok = true → bytes[len - 2]? ≠ some b →
    crcCheck table (bytes.set (len - 2) b) len = ⟨false, .mismatch, (crcCheck table bytes len).val⟩

/-- R142 item 3: under a permutation table every change of one covered byte of a passing frame is detected. -/
def Obligations.CrcDetectsOneByteError : Prop :=
  ∀ (table : Vector Byte 256) (bytes : List Byte) (len i : Nat) (b : Byte), tableInjective table →
    (crcCheck table bytes len).ok = true → i + 3 ≤ len → bytes[i]? ≠ some b →
    (crcCheck table (bytes.set i b) len).ok = false

/-- The constraint the spec derives from R136 (R132; the last two clauses are about the candidate table, ASSUMED,
entry 2): a table with equal entries at two indices that differ in one bit lets some single-bit error of a covered
byte pass, so separating them is necessary to detect every such error; a permutation detects them all; and the
candidate table is a permutation, entries 0 to 127 even and 128 to 255 odd. -/
def Obligations.CrcTableConstraint : Prop :=
  (∀ (table : Vector Byte 256) (a : Byte) (j : Nat), j < 8 →
    crcLookup table a = crcLookup table (a ^^^ BitVec.ofNat 8 (2 ^ j)) → ¬ detectsBitErrors table) ∧
  (∀ table : Vector Byte 256, tableInjective table → detectsBitErrors table) ∧
  tableInjective candidateCrcTable ∧
  (∀ a : Byte, a.toNat < 128 ↔ (crcLookup candidateCrcTable a).toNat % 2 = 0)

/-- R131 (general knowledge, ASSUMED there; entry 2): the candidate table is multiplication by x modulo 0x119. -/
def Obligations.CandidateTableEntries : Prop :=
  ∀ a : Byte, crcLookup candidateCrcTable a = if a.toNat < 128 then a <<< 1 else (a <<< 1) ^^^ 0x19

/-- R142 item 4 (only for the candidate table, ASSUMED; entry 2): the accumulator is linear in the covered bytes. -/
def Obligations.CandidateAccumulatorIsLinear : Prop :=
  ∀ xs ys : List Byte, xs.length = ys.length →
    crcAccumulate candidateCrcTable (List.zipWith (fun x y => x ^^^ y) xs ys) =
      crcAccumulate candidateCrcTable xs ^^^ crcAccumulate candidateCrcTable ys

/-- R142 item 4 (only for the candidate table, ASSUMED; entry 2): flipping `e` in one covered byte and `T[e]` in the
next leaves the check's result as it was. -/
def Obligations.CandidateCompensatingError : Prop :=
  ∀ (bytes : List Byte) (len i : Nat) (e : Byte), i + 4 ≤ len → len - 1 ≤ bytes.length →
    crcCheck candidateCrcTable
      ((bytes.modify i (fun b => b ^^^ e)).modify (i + 1) (fun b => b ^^^ crcLookup candidateCrcTable e)) len =
    crcCheck candidateCrcTable bytes len

/-- R140: CRCQ answers the check of its payload and writes nothing else, for every declared length and payload. -/
def Obligations.CrcqResult : Prop :=
  ∀ (s : State) (len : Nat) (payload : List Byte) (c : CrcResult), crcCheck s.cfg.crcTable payload len = c →
    exec (.crcq len payload) s = .next { s with
      responses := s.responses ++
        [⟨.crcResult, none, false, false, c.ok, c.reason, c.val, s.buf.length, 0, []⟩] }

/-! ### The scan -/

/-- R104, R106: `Find` is the lowest position at which the tag stands, a byte index on the BYTE grid and a nibble
index on the NIBBLE grid, and it answers none exactly where there is no such position. -/
def Obligations.FindIsLowestOccurrence : Prop :=
  ∀ (k : Kind) (bytes : List Byte),
    (∀ p, find .byte bytes k.tag = some p ↔
      IsLeast { p | p + 4 ≤ bytes.length ∧ (bytes.drop p).take 4 = k.tag } p) ∧
    (find .byte bytes k.tag = none ↔ ∀ p, (bytes.drop p).take 4 ≠ k.tag) ∧
    (∀ q, find .nibble bytes k.tag = some q ↔
      IsLeast { q | q + 8 ≤ 2 * bytes.length ∧ ((nibbles bytes).drop q).take 8 = nibbles k.tag } q) ∧
    (find .nibble bytes k.tag = none ↔ ∀ q, ((nibbles bytes).drop q).take 8 ≠ nibbles k.tag)

/-- R105: the scan answers for the first kind in the order 0 to 4 whose tag occurs anywhere, at its lowest position,
FULL if that frame is complete and WAIT if it is not, whatever lower-priority frames the buffer holds; it answers
NOMATCH exactly when no tag occurs. -/
def Obligations.ScanFollowsPriority : Prop :=
  ∀ (grid : MatchGrid) (bytes : List Byte),
    (scan grid bytes = .noMatch ↔ ∀ k : Kind, find grid bytes k.tag = none) ∧
    (∀ (k : Kind) (pos : Nat), find grid bytes k.tag = some pos →
      (∀ k' : Kind, k'.index < k.index → find grid bytes k'.tag = none) →
      (complete grid bytes pos k.length = true →
        scan grid bytes = .full k pos (extract grid bytes pos k.length)) ∧
      (complete grid bytes pos k.length = false → scan grid bytes = .wait k pos))

/-- R105, R106, R111: a tag found in the buffer is found at the same position after any append, and a tag that an
append makes occur ends in the appended bytes, however the two parts cut it. -/
def Obligations.AppendKeepsFoundTags : Prop :=
  ∀ (k : Kind) (bytes chunk : List Byte) (grid : MatchGrid),
    (∀ p, find grid bytes k.tag = some p → find grid (bytes ++ chunk) k.tag = some p) ∧
    (∀ p, find grid bytes k.tag = none → find grid (bytes ++ chunk) k.tag = some p →
      (grid = .byte → bytes.length < p + 4) ∧ (grid = .nibble → 2 * bytes.length < p + 8))

/-- R45, R104: a frame is extracted only where all its bytes stand in the buffer, has exactly the declared length,
and begins with the tag of its kind. -/
def Obligations.ExtractedFrameIsWhole : Prop :=
  ∀ (grid : MatchGrid) (bytes : List Byte) (k : Kind) (pos : Nat) (frame : List Byte),
    scan grid bytes = .full k pos frame →
      frame.length = k.length ∧ frame.take 4 = k.tag ∧
      (grid = .byte → pos + k.length ≤ bytes.length ∧ frame = (bytes.drop pos).take k.length) ∧
      (grid = .nibble → pos + 2 * k.length ≤ 2 * bytes.length ∧
        nibbles frame = ((nibbles bytes).drop pos).take (2 * k.length))

/-- R104: at an even nibble index the NIBBLE functions are the BYTE functions at half of it. -/
def Obligations.EvenNibbleIsByte : Prop :=
  ∀ (bytes tag : List Byte) (p len : Nat),
    ((((nibbles bytes).drop (2 * p)).take (2 * tag.length) = nibbles tag) ↔
      (bytes.drop p).take tag.length = tag) ∧
    complete .nibble bytes (2 * p) len = complete .byte bytes p len ∧
    extract .nibble bytes (2 * p) len = extract .byte bytes p len

/-- The partial-frame property the spec derives from R105 and R107 (R116; entry 15), on the BYTE grid and on the NIBBLE
grid, with the frame measured from the lowest kind-1 tag. Where fewer than 31 bytes stand from that tag on, the scan
answers WAIT for kind 1 if no kind-0 tag occurs. If one does, it answers for kind 0 at its lowest position: WAIT where
fewer than 31 bytes stand from there on, and FULL with the 31 bytes from there on otherwise. -/
def Obligations.PartialFrameWaits : Prop :=
  (∀ (bytes : List Byte) (p : Nat), find .byte bytes Kind.chStatus.tag = some p → bytes.length < p + 31 →
    (find .byte bytes Kind.ignoredHeater.tag = none → scan .byte bytes = .wait .chStatus p) ∧
    (∀ q, find .byte bytes Kind.ignoredHeater.tag = some q →
      (bytes.length < q + 31 → scan .byte bytes = .wait .ignoredHeater q) ∧
      (q + 31 ≤ bytes.length →
        scan .byte bytes = .full .ignoredHeater q ((bytes.drop q).take 31)))) ∧
  (∀ (bytes : List Byte) (p : Nat), find .nibble bytes Kind.chStatus.tag = some p →
    2 * bytes.length < p + 62 →
    (find .nibble bytes Kind.ignoredHeater.tag = none → scan .nibble bytes = .wait .chStatus p) ∧
    (∀ q, find .nibble bytes Kind.ignoredHeater.tag = some q →
      (2 * bytes.length < q + 62 → scan .nibble bytes = .wait .ignoredHeater q) ∧
      (q + 62 ≤ 2 * bytes.length →
        ∃ frame, scan .nibble bytes = .full .ignoredHeater q frame ∧
          nibbles frame = ((nibbles bytes).drop q).take 62)))

/-- R116 read to the letter, for ANY occurrence of the kind-1 tag. Expected to fail: by R105, R106 and R108 an
earlier complete frame of kind 1, or a complete one of kind 0, in the same buffer is consumed (entry 15). -/
def Obligations.PartialFrameWaitsToTheLetter : Prop :=
  ∀ (bytes : List Byte) (p : Nat), (bytes.drop p).take 4 = Kind.chStatus.tag → bytes.length < p + 31 →
    (∃ q, scan .byte bytes = .wait .chStatus q) ∨ (∃ q, scan .byte bytes = .wait .ignoredHeater q)

/-- R47: the trim keeps the newest `BUF_CAP` bytes of a longer buffer, leaves any other as it is, and OVF says
which. -/
def Obligations.TrimKeepsNewest : Prop :=
  (∀ bytes : List Byte, trimmed none bytes = bytes ∧ overflows none bytes = false) ∧
  (∀ (cap : Nat) (bytes : List Byte),
    (cap < bytes.length → overflows (some cap) bytes = true ∧
      ∃ dropped, bytes = dropped ++ trimmed (some cap) bytes ∧ (trimmed (some cap) bytes).length = cap) ∧
    (bytes.length ≤ cap → overflows (some cap) bytes = false ∧ trimmed (some cap) bytes = bytes))

/-! ### PUSH, the signature rows and the prefix row -/

/-- R100, R114: a PUSH that `CHUNK_MAX` admits completes with the state and the response of R114's table; a chunk
with the diagnostic prefix counts as received only if `DIAG_APPEND`. -/
def Obligations.PushFollowsOutcomeTable : Prop :=
  ∀ (s : State) (chunk : List Byte), chunk.length ≤ s.cfg.chunkMax →
    (diagPrefix chunk = false → exec (.push chunk) s = .next (s.pushOutcome false (s.buf ++ chunk))) ∧
    (diagPrefix chunk = true → s.cfg.diagAppend = true →
      exec (.push chunk) s = .next (s.pushOutcome true (s.buf ++ chunk))) ∧
    (diagPrefix chunk = true → s.cfg.diagAppend = false →
      exec (.push chunk) s = .next (s.pushOutcome true s.buf))

/-- R102, over the model's reading of the prefix row as an instruction (entry 8): the prefix is `23 48 52` at the
start of a chunk; the row of the prefix completes with the table of R114 with DIAG 1, over the chunk appended or the
buffer as it was (ILLEGAL above `CHUNK_MAX`, as any PUSH); a PUSH of such a chunk is that row; and a chunk that does
not start with the prefix is ordinary data, appended with DIAG 0. -/
def Obligations.DiagnosticPrefixRow : Prop :=
  (∀ chunk : List Byte, diagPrefix chunk = true ↔ ∃ rest, chunk = [0x23, 0x48, 0x52] ++ rest) ∧
  (∀ (s : State) (rest : List Byte), rest.length + 3 ≤ s.cfg.chunkMax →
    exec (.diagPrefixHr rest) s = .next (s.pushOutcome true
      (if s.cfg.diagAppend then s.buf ++ [0x23, 0x48, 0x52] ++ rest else s.buf))) ∧
  (∀ (s : State) (rest : List Byte), s.cfg.chunkMax < rest.length + 3 →
    exec (.diagPrefixHr rest) s = .next s.illegalAnswer) ∧
  (∀ (s : State) (rest : List Byte),
    exec (.push ([0x23, 0x48, 0x52] ++ rest)) s = exec (.diagPrefixHr rest) s) ∧
  (∀ (s : State) (chunk : List Byte), chunk.length ≤ s.cfg.chunkMax → diagPrefix chunk = false →
    exec (.push chunk) s = .next (s.pushOutcome false (s.buf ++ chunk)))

/-- R107 to R109, over the model's reading of a signature row as an instruction (entry 7): TAG_IGNORED_HEATER. An
incomplete frame leaves `BUF` intact and answers WAIT; a complete one clears `BUF` and answers IGNORED with the
frame, without a CRC check and without the decoder port. -/
def Obligations.IgnoredHeaterRow : Prop :=
  ∀ (s : State) (pos : Nat) (ovf diag : Bool),
    (complete s.cfg.matchGrid s.buf pos 31 = false →
      exec (.tagIgnoredHeater pos ovf diag) s = .next { s with
        responses := s.responses ++
          [⟨.wait, some .ignoredHeater, ovf, diag, false, .none, 0, s.buf.length, pos, []⟩] }) ∧
    (complete s.cfg.matchGrid s.buf pos 31 = true →
      exec (.tagIgnoredHeater pos ovf diag) s = .next { s with
        buf := []
        responses := s.responses ++
          [⟨.ignored, some .ignoredHeater, ovf, diag, false, .none, 0, 0, pos,
            extract s.cfg.matchGrid s.buf pos 31⟩] })

/-- R107, R108, R110, R112, over the model's reading of a signature row (entry 7): TAG_CH_STATUS, TAG_HC_STATUS,
TAG_DHW_STATUS and TAG_DATETIME, the rows of the kinds that are decoded, with their declared lengths 31, 14, 23 and 14
(R70). An incomplete frame leaves `BUF` intact and answers WAIT; a complete one clears `BUF`, and the CRC check decides
between FRAME_OK with the decoder port driven and FRAME_BAD with it not driven. -/
def Obligations.DecodedKindRows : Prop :=
  ∀ (s : State) (pos : Nat) (ovf diag : Bool) (k : Kind) (len : Nat) (i : Instr) (c : CrcResult)
    (frame : List Byte),
    (k = .chStatus ∧ len = 31 ∧ i = .tagChStatus pos ovf diag) ∨
      (k = .hcStatus ∧ len = 14 ∧ i = .tagHcStatus pos ovf diag) ∨
      (k = .dhwStatus ∧ len = 23 ∧ i = .tagDhwStatus pos ovf diag) ∨
      (k = .datetime ∧ len = 14 ∧ i = .tagDatetime pos ovf diag) →
    frame = extract s.cfg.matchGrid s.buf pos len → c = crcCheck s.cfg.crcTable frame len →
    (complete s.cfg.matchGrid s.buf pos len = false →
      exec i s = .next { s with
        responses := s.responses ++
          [⟨.wait, some k, ovf, diag, false, .none, 0, s.buf.length, pos, []⟩] }) ∧
    (complete s.cfg.matchGrid s.buf pos len = true → c.ok = true →
      exec i s = .next { s with
        buf := []
        decoderOut := s.decoderOut ++ [⟨k, len, frame⟩]
        responses := s.responses ++ [⟨.frameOk, some k, ovf, diag, true, .none, c.val, 0, pos, frame⟩] }) ∧
    (complete s.cfg.matchGrid s.buf pos len = true → c.ok = false →
      exec i s = .next { s with
        buf := []
        responses := s.responses ++
          [⟨.frameBad, some k, ovf, diag, false, .mismatch, c.val, 0, pos, frame⟩] })

/-- R77, R100, R102, over the model's reading of a signature row (entry 7): a PUSH whose scan selects a kind runs that
kind's row of the signature table, at the selected position and under its own OVF and DIAG, on the trimmed buffer. DIAG
is 1 exactly for a chunk with the diagnostic prefix, and such a chunk is appended before the trim only if
`DIAG_APPEND`; every other chunk is. -/
def Obligations.PushRunsSelectedRow : Prop :=
  ∀ (s : State) (chunk received kept : List Byte) (diag : Bool) (k : Kind) (pos : Nat),
    chunk.length ≤ s.cfg.chunkMax →
    ((diagPrefix chunk = false ∧ diag = false ∧ received = s.buf ++ chunk) ∨
      (diagPrefix chunk = true ∧ s.cfg.diagAppend = true ∧ diag = true ∧ received = s.buf ++ chunk) ∨
      (diagPrefix chunk = true ∧ s.cfg.diagAppend = false ∧ diag = true ∧ received = s.buf)) →
    kept = trimmed s.cfg.bufCap received → find s.cfg.matchGrid kept k.tag = some pos →
    (∀ k' : Kind, k'.index < k.index → find s.cfg.matchGrid kept k'.tag = none) →
    exec (.push chunk) s = exec (k.instr pos (overflows s.cfg.bufCap received) diag) { s with buf := kept }

/-- R112: the decoder port is driven exactly by a PUSH whose response is FRAME_OK, with a kind of 1 to 4, its
declared length and the frame of that many bytes, tag first. -/
def Obligations.DecoderPortOnlyOnFrameOk : Prop :=
  ∀ (i : Instr) (s t : State), i.isCommand = true → exec i s = .next t →
    ∃ r, t.responses = s.responses ++ [r] ∧
      (r.evt ≠ .frameOk → t.decoderOut = s.decoderOut) ∧
      (r.evt = .frameOk → (∃ chunk, i = .push chunk) ∧
        ∃ k, k ≠ .ignoredHeater ∧ r.kind = some k ∧ r.frame.length = k.length ∧ r.frame.take 4 = k.tag ∧
          t.decoderOut = s.decoderOut ++ [⟨k, k.length, r.frame⟩])

/-- R108, R201: a PUSH that consumes a frame leaves `BUF` empty, with every byte before and after the frame dropped,
and drives the decoder port at most once; a PUSH that consumes none keeps the buffer its scan saw. -/
def Obligations.OneFramePerPush : Prop :=
  ∀ (s t : State) (chunk : List Byte), exec (.push chunk) s = .next t →
    ∃ r, t.responses = s.responses ++ [r] ∧ t.decoderOut.length ≤ s.decoderOut.length + 1 ∧
      (r.evt = .frameOk ∨ r.evt = .frameBad ∨ r.evt = .ignored → t.buf = [] ∧ r.bufLen = 0) ∧
      (r.evt = .noMatch ∨ r.evt = .wait → t.decoderOut = s.decoderOut ∧ r.bufLen = t.buf.length ∧
        (t.buf = trimmed s.cfg.bufCap (s.buf ++ chunk) ∨
          diagPrefix chunk = true ∧ s.cfg.diagAppend = false ∧ t.buf = trimmed s.cfg.bufCap s.buf))

/-- R46, R115 item 1: between commands (R20, R23), a PUSH of no bytes changes nothing but the response history, and
answers the NOMATCH or WAIT of the buffer as it stands. -/
def Obligations.EmptyPushChangesNothing : Prop :=
  ∀ s : State, s.Settled → s.WithinCap →
    ∃ r, exec (.push []) s = .next { s with responses := s.responses ++ [r] } ∧
      r.ovf = false ∧ r.diag = false ∧ r.bufLen = s.buf.length ∧
      ((r.evt = .noMatch ∧ scan s.cfg.matchGrid s.buf = .noMatch) ∨
        ∃ k, r.evt = .wait ∧ r.kind = some k ∧ scan s.cfg.matchGrid s.buf = .wait k r.matchOff)

/-- R197, R200, R69: while the host keeps its chunk duty no command is answered ILLEGAL, each command has one
response, and a run that ends with FLUSH, as at `stop()`, ends with an empty buffer. -/
def Obligations.DutifulRunIsNeverIllegal : Prop :=
  ∀ (cmds : List Instr) (s : State),
    (∀ i ∈ cmds, i.isCommand = true ∧ keepsChunkDuty s.cfg i = true) →
    ∃ t rs, execAll cmds s = .next t ∧ t.observation.responses = s.responses ++ rs ∧
      rs.length = cmds.length ∧ (∀ r ∈ rs, r.evt ≠ .illegal) ∧
      (endsWithFlush cmds = true → t.observation.buf = [])

/-- R111, R195, R198: however the host cuts a stream without a tag into chunks (none of them diagnostic text), the
unbounded block keeps every byte, answers NOMATCH to every chunk and drives no decoder output. -/
def Obligations.TaglessStreamIsKeptUnderEveryCut : Prop :=
  ∀ (cfg : Config) (stream : List Byte) (chunks : List (List Byte)),
    cfg.bufCap = none → IsChunking cfg stream chunks → (∀ c ∈ chunks, diagPrefix c = false) →
    (∀ k : Kind, find cfg.matchGrid stream k.tag = none) →
    ∃ t, execAll (chunks.map .push) (State.powerOn cfg) = .next t ∧
      t.observation.buf = stream ∧ t.observation.decoderOut = [] ∧
      t.observation.responses.length = chunks.length ∧ ∀ r ∈ t.observation.responses, r.evt = .noMatch

/-! ### Invariants over every step -/

/-- The invariant of spec/10_state.md section 1, which the spec derives from R107, R108, R111, R150 and R151 (R23):
every step keeps it that the buffer is empty or its scan gives NOMATCH or WAIT, so a complete frame of the selected
kind never persists across commands. -/
def Obligations.StepKeepsBufferSettled : Prop :=
  ∀ s t : State, s.Settled → step s = .next t → t.Settled

/-- R23, R190: the reset state has a settled buffer, within its capacity. -/
def Obligations.ResetIsSettled : Prop := State.reset.Settled ∧ State.reset.WithinCap

/-- R20, R47: every step keeps the buffer within `BUF_CAP`. -/
def Obligations.StepKeepsBufferWithinCap : Prop :=
  ∀ s t : State, s.WithinCap → step s = .next t → t.WithinCap

/-- R27, R29: no step changes a configuration field, the CRC table among them. -/
def Obligations.StepKeepsConfiguration : Prop :=
  ∀ s t : State, step s = .next t → t.cfg = s.cfg

/-- R64, R66 to R68, R114, R140, R171: every step keeps it that each response is of a shape the spec gives its
event. -/
def Obligations.StepKeepsResponsesLawful : Prop :=
  ∀ s t : State, (∀ r ∈ s.responses, r.Lawful) → step s = .next t → ∀ r ∈ t.responses, r.Lawful

/-- The equivalence the spec derives from R47 and R104 to R108 (R204): a block with a finite `BUF_CAP` of at least
`CHUNK_MAX + 31` simulates the unbounded one. From twin states, with the unbounded buffer settled (R23), one step of
each gives twin states again: the same EVT, KIND, DIAG, CRC fields and frames, and the same decoder outputs. -/
def Obligations.BoundedBufferSimulatesUnbounded : Prop :=
  ∀ (cap : Nat) (bounded unbounded : State), unbounded.cfg.chunkMax + 31 ≤ cap →
    State.BoundedTwin cap bounded unbounded → unbounded.Settled →
    ∃ bounded' unbounded', step bounded = .next bounded' ∧ step unbounded = .next unbounded' ∧
      State.BoundedTwin cap bounded' unbounded' ∧ unbounded'.Settled

/-- The equivalence the spec derives from R47 and R104 to R108 (R204), over whole runs: from power-on, however many
steps are run on whatever bytes stand ahead at the command port (the model's choice of entry 4), a block with a finite
`BUF_CAP` of at least `CHUNK_MAX + 31` shows the same decoder outputs and the same responses, but for OVF, BUF_LEN and
MATCH_OFF, as the unbounded block. -/
def Obligations.CapacityDoesNotShowInFrames : Prop :=
  ∀ (cfg : Config) (cap n : Nat) (stream : List Byte), cfg.bufCap = none → cfg.chunkMax + 31 ≤ cap →
    ∃ b u : State,
      Host.Core.run Sys2Proof.core n { State.powerOn { cfg with bufCap := some cap } with cmdIn := stream } =
        .next b ∧
      Host.Core.run Sys2Proof.core n { State.powerOn cfg with cmdIn := stream } = .next u ∧
      b.decoderOut = u.decoderOut ∧
      b.responses.map Response.capacityFree = u.responses.map Response.capacityFree
end

