-- ==== Sys2Proof/Laws/State.lean ====
section
/-! SUPPORT. One lemma per field per update of the state, true by rfl. -/

namespace Sys2Proof.Machine

variable (s : State)

@[simp] theorem State.append_cfg (chunk : List Byte) : (s.append chunk).cfg = s.cfg := rfl
@[simp] theorem State.append_buf (chunk : List Byte) : (s.append chunk).buf = s.buf ++ chunk := rfl
@[simp] theorem State.append_cmdIn (chunk : List Byte) : (s.append chunk).cmdIn = s.cmdIn := rfl
@[simp] theorem State.append_responses (chunk : List Byte) : (s.append chunk).responses = s.responses := rfl
@[simp] theorem State.append_decoderOut (chunk : List Byte) : (s.append chunk).decoderOut = s.decoderOut := rfl

@[simp] theorem State.clear_cfg : (s.clear).cfg = s.cfg := rfl
@[simp] theorem State.clear_buf : (s.clear).buf = [] := rfl
@[simp] theorem State.clear_cmdIn : (s.clear).cmdIn = s.cmdIn := rfl
@[simp] theorem State.clear_responses : (s.clear).responses = s.responses := rfl
@[simp] theorem State.clear_decoderOut : (s.clear).decoderOut = s.decoderOut := rfl

@[simp] theorem State.trim_cfg : (s.trim).cfg = s.cfg := rfl
@[simp] theorem State.trim_buf : (s.trim).buf = trimmed s.cfg.bufCap s.buf := rfl
@[simp] theorem State.trim_cmdIn : (s.trim).cmdIn = s.cmdIn := rfl
@[simp] theorem State.trim_responses : (s.trim).responses = s.responses := rfl
@[simp] theorem State.trim_decoderOut : (s.trim).decoderOut = s.decoderOut := rfl

@[simp] theorem State.respond_cfg (r : Response) : (s.respond r).cfg = s.cfg := rfl
@[simp] theorem State.respond_buf (r : Response) : (s.respond r).buf = s.buf := rfl
@[simp] theorem State.respond_cmdIn (r : Response) : (s.respond r).cmdIn = s.cmdIn := rfl
@[simp] theorem State.respond_responses (r : Response) : (s.respond r).responses = s.responses ++ [r] := rfl
@[simp] theorem State.respond_decoderOut (r : Response) : (s.respond r).decoderOut = s.decoderOut := rfl

@[simp] theorem State.driveDecoder_cfg (d : DecoderOutput) : (s.driveDecoder d).cfg = s.cfg := rfl
@[simp] theorem State.driveDecoder_buf (d : DecoderOutput) : (s.driveDecoder d).buf = s.buf := rfl
@[simp] theorem State.driveDecoder_cmdIn (d : DecoderOutput) : (s.driveDecoder d).cmdIn = s.cmdIn := rfl
@[simp] theorem State.driveDecoder_responses (d : DecoderOutput) : (s.driveDecoder d).responses = s.responses := rfl
@[simp] theorem State.driveDecoder_decoderOut (d : DecoderOutput) : (s.driveDecoder d).decoderOut = s.decoderOut ++ [d] := rfl

@[simp] theorem State.withCmdIn_cfg (rest : List Byte) : (s.withCmdIn rest).cfg = s.cfg := rfl
@[simp] theorem State.withCmdIn_buf (rest : List Byte) : (s.withCmdIn rest).buf = s.buf := rfl
@[simp] theorem State.withCmdIn_cmdIn (rest : List Byte) : (s.withCmdIn rest).cmdIn = rest := rfl
@[simp] theorem State.withCmdIn_responses (rest : List Byte) : (s.withCmdIn rest).responses = s.responses := rfl
@[simp] theorem State.withCmdIn_decoderOut (rest : List Byte) : (s.withCmdIn rest).decoderOut = s.decoderOut := rfl

@[simp] theorem State.raiseIllegal_cfg : (s.raiseIllegal).cfg = s.cfg := rfl
@[simp] theorem State.raiseIllegal_buf : (s.raiseIllegal).buf = s.buf := rfl
@[simp] theorem State.raiseIllegal_cmdIn : (s.raiseIllegal).cmdIn = s.cmdIn := rfl
@[simp] theorem State.raiseIllegal_responses : (s.raiseIllegal).responses = s.responses ++ [Response.blank .illegal s.buf.length] := rfl
@[simp] theorem State.raiseIllegal_decoderOut : (s.raiseIllegal).decoderOut = s.decoderOut := rfl

@[simp] theorem State.acknowledge_cfg : (s.acknowledge).cfg = s.cfg := rfl
@[simp] theorem State.acknowledge_buf : (s.acknowledge).buf = s.buf := rfl
@[simp] theorem State.acknowledge_cmdIn : (s.acknowledge).cmdIn = s.cmdIn := rfl
@[simp] theorem State.acknowledge_responses : (s.acknowledge).responses = s.responses ++ [Response.blank .ack s.buf.length] := rfl
@[simp] theorem State.acknowledge_decoderOut : (s.acknowledge).decoderOut = s.decoderOut := rfl

variable (cfg : Config)

@[simp] theorem State.powerOn_cfg : (State.powerOn cfg).cfg = cfg := rfl
@[simp] theorem State.powerOn_buf : (State.powerOn cfg).buf = [] := rfl
@[simp] theorem State.powerOn_cmdIn : (State.powerOn cfg).cmdIn = [] := rfl
@[simp] theorem State.powerOn_responses : (State.powerOn cfg).responses = [] := rfl
@[simp] theorem State.powerOn_decoderOut : (State.powerOn cfg).decoderOut = [] := rfl

end Sys2Proof.Machine
end

