-- ==== Sys2Proof/Laws/Ops.lean ====
section
/-! SUPPORT. What each shared operation can do, said once: the provers cite these instead of unfolding. -/

namespace Sys2Proof.Machine

/-! ### Nibbles and extraction -/

@[simp] theorem nibbles_nil : nibbles [] = [] := rfl

@[simp] theorem nibbles_cons (b : Byte) (bs : List Byte) :
    nibbles (b :: bs) = b.extractLsb' 4 4 :: b.extractLsb' 0 4 :: nibbles bs := rfl

@[simp] theorem nibbles_length (bs : List Byte) : (nibbles bs).length = 2 * bs.length := by
  induction bs with
  | nil => rfl
  | cons b bs ih => simp only [nibbles_cons, List.length_cons, ih]; omega

theorem nibbles_append (xs ys : List Byte) : nibbles (xs ++ ys) = nibbles xs ++ nibbles ys := by
  simp [nibbles]

/-- A byte is its two nibbles (R16). -/
theorem byte_of_nibbles (b : Byte) : (b.extractLsb' 4 4 ++ b.extractLsb' 0 4 : BitVec (4 + 4)) = b := by
  ext i hi
  simp only [BitVec.getElem_append, BitVec.getElem_extractLsb']
  split <;> rename_i h
  · rw [Nat.zero_add]; rfl
  · rw [show 4 + (i - 4) = i by omega]; rfl

theorem bytesOfNibbles_nibbles (bs : List Byte) : bytesOfNibbles (nibbles bs) = bs := by
  induction bs with
  | nil => rfl
  | cons b bs ih => simp [bytesOfNibbles, ih, byte_of_nibbles]

theorem bytesOfNibbles_length (m : Nat) :
    ∀ ns : List Nibble, ns.length = 2 * m → (bytesOfNibbles ns).length = m := by
  induction m with
  | zero => intro ns h; cases ns with
    | nil => rfl
    | cons n ns => simp at h
  | succ m ih =>
    intro ns h
    match ns, h with
    | [], h => simp at h
    | [_], h => simp at h; omega
    | a :: b :: rest, h =>
      have hr : rest.length = 2 * m := by simp at h; omega
      simp [bytesOfNibbles, ih rest hr]

theorem nibblesOfByte_append : ∀ hi lo : Nibble, nibblesOfByte (hi ++ lo : BitVec (4 + 4)) = [hi, lo] := by
  decide +kernel

/-- The nibbles of bytes made from an even number of nibbles are those nibbles. -/
theorem nibbles_bytesOfNibbles (m : Nat) :
    ∀ ns : List Nibble, ns.length = 2 * m → nibbles (bytesOfNibbles ns) = ns := by
  induction m with
  | zero => intro ns h; cases ns with
    | nil => rfl
    | cons n ns => simp at h
  | succ m ih =>
    intro ns h
    match ns, h with
    | [], h => simp at h
    | [_], h => simp at h; omega
    | a :: b :: rest, h =>
      have hr : rest.length = 2 * m := by simp at h; omega
      change nibblesOfByte _ ++ nibbles (bytesOfNibbles rest) = _
      rw [nibblesOfByte_append, ih rest hr]; rfl

/-- A complete frame is extracted at its whole length, on either grid (R45). -/
theorem extract_length {grid : MatchGrid} {bytes : List Byte} {pos len : Nat}
    (h : complete grid bytes pos len = true) : (extract grid bytes pos len).length = len := by
  cases grid with
  | byte => simp [complete] at h; simp [extract]; omega
  | nibble =>
    simp [complete] at h
    exact bytesOfNibbles_length len _ (by simp; omega)

/-! ### The scan -/

/-- What `selectAmong` can answer: the first kind of the list that occurs, or none when no kind of it does. -/
theorem selectAmong_cases (grid : MatchGrid) (bytes : List Byte) (kinds : List Kind) :
    (selectAmong grid bytes kinds = none ∧ ∀ k ∈ kinds, find grid bytes k.tag = none) ∨
    (∃ before k after pos, kinds = before ++ k :: after ∧ selectAmong grid bytes kinds = some (k, pos) ∧
      find grid bytes k.tag = some pos ∧ ∀ k' ∈ before, find grid bytes k'.tag = none) := by
  induction kinds with
  | nil => left; simp [selectAmong]
  | cons k ks ih =>
    cases hf : find grid bytes k.tag with
    | some pos => exact .inr ⟨[], k, ks, pos, rfl, by simp [selectAmong, hf], hf, by simp⟩
    | none =>
      rcases ih with ⟨hn, hall⟩ | ⟨before, k', after, pos, hks, hs, hp, hb⟩
      · left; simp [selectAmong, hf, hn]; exact hall
      · refine .inr ⟨k :: before, k', after, pos, by simp [hks], by simp [selectAmong, hf, hs], hp, ?_⟩
        simpa [hf] using hb

/-- What `resolveMatch` can answer: WAIT for an incomplete frame, FULL with the extracted frame for a complete one. -/
theorem resolveMatch_cases (grid : MatchGrid) (bytes : List Byte) (k : Kind) (pos : Nat) :
    (complete grid bytes pos k.length = false ∧ resolveMatch grid bytes k pos = .wait k pos) ∨
    (complete grid bytes pos k.length = true ∧
      resolveMatch grid bytes k pos = .full k pos (extract grid bytes pos k.length)) := by
  cases h : complete grid bytes pos k.length <;> simp [resolveMatch, h]

/-! ### The CRC check -/

/-- What `crcCheck` can answer (R133). -/
theorem crcCheck_cases (table : Vector Byte 256) (bytes : List Byte) (len : Nat) :
    (len < 3 ∧ crcCheck table bytes len = ⟨false, .short, 0⟩) ∨
    (3 ≤ len ∧ bytes.length < len - 1 ∧ crcCheck table bytes len = ⟨false, .range, 0⟩) ∨
    (3 ≤ len ∧ len - 1 ≤ bytes.length ∧ bytes[len - 2]? = some (crcAccumulate table (bytes.take (len - 2))) ∧
      crcCheck table bytes len = ⟨true, .none, crcAccumulate table (bytes.take (len - 2))⟩) ∨
    (3 ≤ len ∧ len - 1 ≤ bytes.length ∧ bytes[len - 2]? ≠ some (crcAccumulate table (bytes.take (len - 2))) ∧
      crcCheck table bytes len = ⟨false, .mismatch, crcAccumulate table (bytes.take (len - 2))⟩) := by
  unfold crcCheck
  split
  · exact .inl ⟨‹_›, rfl⟩
  · split
    · exact .inr (.inl ⟨by omega, ‹_›, rfl⟩)
    · dsimp only
      split
      · exact .inr (.inr (.inl ⟨by omega, by omega, ‹_›, rfl⟩))
      · exact .inr (.inr (.inr ⟨by omega, by omega, ‹_›, rfl⟩))

/-! ### A selected signature -/

/-- What serving a selected signature can do (R107 to R110): wait, consume an ignored frame, deliver a frame that
passes, or discard one that fails. -/
theorem serveMatch_cases (s : State) (k : Kind) (pos : Nat) (ovf diag : Bool) :
    (complete s.cfg.matchGrid s.buf pos k.length = false ∧
      s.serveMatch k pos ovf diag = s.awaitFrame k pos ovf diag) ∨
    (complete s.cfg.matchGrid s.buf pos k.length = true ∧ k.action = .ignore ∧
      s.serveMatch k pos ovf diag =
        s.ignoreFrame k pos ovf diag (extract s.cfg.matchGrid s.buf pos k.length)) ∨
    (complete s.cfg.matchGrid s.buf pos k.length = true ∧ k.action = .decode ∧
      s.serveMatch k pos ovf diag =
        s.checkFrame k pos ovf diag (extract s.cfg.matchGrid s.buf pos k.length)) := by
  rcases resolveMatch_cases s.cfg.matchGrid s.buf k pos with ⟨hc, hr⟩ | ⟨hc, hr⟩
  · exact .inl ⟨hc, by simp [State.serveMatch, hr]⟩
  · right
    cases ha : k.action
    · exact .inl ⟨hc, rfl, by simp [State.serveMatch, hr, ha]⟩
    · exact .inr ⟨hc, rfl, by simp [State.serveMatch, hr, ha]⟩

/-- Every row of the signature table is the service of its kind (R77). -/
theorem runSignature_eq (k : Kind) (pos : Nat) (ovf diag : Bool) (s : State) :
    runSignature k pos ovf diag s = .next (s.serveMatch k pos ovf diag) := by
  cases k <;> rfl

/-- The row the scan selects is the dispatch of that row's instruction. -/
theorem runSignature_eq_exec (k : Kind) (pos : Nat) (ovf diag : Bool) (s : State) :
    runSignature k pos ovf diag s = exec (k.instr pos ovf diag) s := by
  cases k <;> rfl

/-- What the receive sequence can do after the append (R100): report no match, or serve the selected kind. -/
theorem trimAndScan_cases (diag : Bool) (s : State) :
    (selectKind s.cfg.matchGrid s.trim.buf = none ∧
      trimAndScan diag s = .next (s.trim.reportNoMatch (overflows s.cfg.bufCap s.buf) diag)) ∨
    (∃ k pos, selectKind s.cfg.matchGrid s.trim.buf = some (k, pos) ∧
      trimAndScan diag s = .next (s.trim.serveMatch k pos (overflows s.cfg.bufCap s.buf) diag)) := by
  cases h : selectKind s.cfg.matchGrid s.trim.buf with
  | none => exact .inl ⟨rfl, by simp only [trimAndScan, State.trim_cfg, h]⟩
  | some p => exact .inr ⟨p.1, p.2, rfl, by simp only [trimAndScan, State.trim_cfg, h, runSignature_eq]⟩

/-- What a PUSH can do (R100, R102): answer ILLEGAL, or run the receive sequence on the buffer with or without the
chunk. -/
theorem execPush_cases (chunk : List Byte) (s : State) :
    (s.cfg.chunkMax < chunk.length ∧ execPush chunk s = .next s.raiseIllegal) ∨
    (chunk.length ≤ s.cfg.chunkMax ∧ diagPrefix chunk = false ∧
      execPush chunk s = trimAndScan false (s.append chunk)) ∨
    (chunk.length ≤ s.cfg.chunkMax ∧ diagPrefix chunk = true ∧
      execPush chunk s = trimAndScan true (if s.cfg.diagAppend then s.append chunk else s)) := by
  by_cases hl : s.cfg.chunkMax < chunk.length
  · exact .inl ⟨hl, by simp [execPush, hl]⟩
  · right
    cases hd : diagPrefix chunk with
    | false => exact .inl ⟨by omega, rfl, by simp [execPush, hl, hd]⟩
    | true =>
      have ht : chunk.take 3 = diagTag := by simpa [diagPrefix] using hd
      have hc : diagTag ++ chunk.drop 3 = chunk := by rw [← ht, List.take_append_drop]
      have hlen : (chunk.drop 3).length + 3 = chunk.length := by
        have := congrArg List.length hc
        simp [diagTag] at this ⊢; omega
      exact .inr ⟨by omega, rfl, by simp only [execPush, hl, hd, execDiagPrefixHr, hlen, hc, if_false, if_true]⟩

/-- What one step can do: wait, answer ILLEGAL, or run the command it took. -/
theorem step_cases (s : State) :
    (decode .command s.cmdIn = .incomplete ∧ step s = .next s) ∨
    (∃ why rest, decode .command s.cmdIn = .rejected why rest ∧
      step s = .next (s.withCmdIn rest).raiseIllegal) ∨
    (∃ i rest, decode .command s.cmdIn = .instr i rest ∧ step s = exec i (s.withCmdIn rest)) := by
  cases h : decode .command s.cmdIn with
  | incomplete => exact .inl ⟨rfl, by simp [step, h]⟩
  | rejected why rest => exact .inr (.inl ⟨why, rest, rfl, by simp [step, h]⟩)
  | instr i rest => exact .inr (.inr ⟨i, rest, rfl, by simp [step, h]⟩)

end Sys2Proof.Machine
end

