-- ==== Sys2Proof/Laws/PerInstr.lean ====
section
/-! SUPPORT. The per-instruction family `EncodedSize`: the encoding of an instruction has its size (spec/30_encoding.md
R75). -/

namespace Sys2Proof.Laws.EncodedSize

/-- An instruction's encoding occupies exactly its size in bytes. -/
def Statement (i : Instr) : Prop := (encode i).length = i.size

theorem reset : Statement .reset := rfl

theorem push (chunk : List Byte) : Statement (.push chunk) := by
  simp only [Statement, encode, bytesOfWord, Instr.size, List.length_append, List.length_cons, List.length_nil]

theorem flush : Statement .flush := rfl

theorem crcq (len : Nat) (payload : List Byte) : Statement (.crcq len payload) := by
  simp only [Statement, encode, bytesOfWord, Instr.size, List.length_append, List.length_cons, List.length_nil]

theorem tagIgnoredHeater (pos : Nat) (ovf diag : Bool) : Statement (.tagIgnoredHeater pos ovf diag) := rfl

theorem tagChStatus (pos : Nat) (ovf diag : Bool) : Statement (.tagChStatus pos ovf diag) := rfl

theorem tagHcStatus (pos : Nat) (ovf diag : Bool) : Statement (.tagHcStatus pos ovf diag) := rfl

theorem tagDhwStatus (pos : Nat) (ovf diag : Bool) : Statement (.tagDhwStatus pos ovf diag) := rfl

theorem tagDatetime (pos : Nat) (ovf diag : Bool) : Statement (.tagDatetime pos ovf diag) := rfl

theorem diagPrefixHr (rest : List Byte) : Statement (.diagPrefixHr rest) := by
  simp only [Statement, encode, diagTag, Instr.size, List.length_append, List.length_cons, List.length_nil]

end Sys2Proof.Laws.EncodedSize
end

