-- ==== Sys2Proof/Tests/Slice0.lean ====
section
/-! SUPPORT. Tests: ill-formed terms, words written out from the spec's tables, vectors of spec/95_test_vectors.md, and a
witness for the hypotheses of every statement that has some. Vectors whose outcome depends on the CRC table name the
candidate table of R131. -/

set_option Elab.async false

namespace Sys2Proof.Tests

open Sys2Proof Sys2Proof.Machine

/-- A small instance: the candidate table, chunks of at most 40 bytes, the spec's defaults otherwise. -/
def cfg40 : Config := ⟨candidateCrcTable, 40, none, .byte, false⟩

/-- A state with a buffer and bytes at the command port. -/
def st (cfg : Config) (buf cmdIn : List Byte) : State := ⟨cfg, buf, cmdIn, [], []⟩

/-- Frame DT of spec/95_test_vectors.md. -/
def dt : List Byte := [0x90, 0x00, 0x06, 0x00, 0x17, 0x05, 0x0A, 0x03, 0x1E, 0x00, 0x00, 0x00, 0x5A, 0x00]

/-- Frame HC. -/
def hc : List Byte := [0x90, 0x00, 0xFF, 0x00, 0x00, 0x00, 0x02, 0x01, 0x00, 0xD7, 0x00, 0xD2, 0xDE, 0x00]

/-- Frame DHW. -/
def dhw : List Byte :=
  [0x88, 0x00, 0x34, 0x00, 0x3C, 0x02, 0x26, 0x02, 0x08, 0x28, 0x00, 0x00, 0x00, 0x00, 0x00, 0x10, 0x00, 0x00,
   0x01, 0xF4, 0x00, 0x50, 0x00]

/-- Frame CH. -/
def ch : List Byte :=
  [0x88, 0x00, 0x18, 0x00, 0x2D, 0x01, 0xC2, 0x00, 0x32, 0x08, 0x00, 0x21, 0x00, 0x01, 0x90, 0x00, 0x00, 0x00,
   0x00, 0x00, 0x00, 0x00, 0x20, 0x20, 0x00, 0xCB, 0x00, 0x00, 0x00, 0xBB, 0x00]

/-- Frame IGN. -/
def ign : List Byte := [0x88, 0x00, 0x20, 0x00] ++ List.replicate 27 0

/-- The last response, the buffer and the number of decoder outputs after an outcome. -/
def seen (o : Host.Outcome State Fault Refusal) : Option (Option Response × List Byte × Nat) :=
  match o with
  | .next t => some (t.responses.getLast?, t.buf, t.decoderOut.length)
  | .fault _ => none
  | .refused _ => none

/-- The last response alone. -/
def answer (o : Host.Outcome State Fault Refusal) : Option Response :=
  match o with
  | .next t => t.responses.getLast?
  | .fault _ => none
  | .refused _ => none

/-! ### Ill-formed terms are refused (WellFormed.lean) -/

theorem test_wf_refuses_long_push : (Instr.push (List.replicate 65536 0)).wf = false := by
  rw [Instr.wf, List.length_replicate]; decide

theorem test_wf_refuses_wide_crcq_length : (Instr.crcq 4096 []).wf = false := by decide

theorem test_wf_refuses_long_crcq_payload : (Instr.crcq 0 (List.replicate 65536 0)).wf = false := by
  rw [Instr.wf, List.length_replicate]; decide

theorem test_wf_refuses_long_prefix_chunk : (Instr.diagPrefixHr (List.replicate 65533 0)).wf = false := by
  rw [Instr.wf, List.length_replicate]; decide

theorem test_isCommand_refuses_signature_row : (Instr.tagDatetime 0 false false).isCommand = false := by decide

theorem test_config_refuses_zero_chunk : Config.legal { cfg40 with chunkMax := 0 } = false := by decide +kernel

theorem test_config_refuses_wide_chunk : Config.legal { cfg40 with chunkMax := 65536 } = false := by decide +kernel

theorem test_config_refuses_small_cap : Config.legal { cfg40 with bufCap := some 70 } = false := by decide +kernel

theorem test_config_takes_least_cap : Config.legal { cfg40 with bufCap := some 71 } = true := by decide +kernel

/-! ### Words written out bit by bit (spec/30_encoding.md R61, R62, R70, R73) -/

theorem test_decode_reset_word :
    wordOfBytes 0x10 0 0 0 = 0b0001_000000000000_0000000000000000#32 ∧
    decode .command [0x10, 0, 0, 0] = .instr .reset [] := by decide

theorem test_decode_push_word :
    wordOfBytes 0x20 0 0 3 = 0b0010_000000000000_0000000000000011#32 ∧
    decode .command [0x20, 0, 0, 3, 1, 2, 3, 9] = .instr (.push [1, 2, 3]) [9] := by decide

theorem test_decode_flush_word :
    wordOfBytes 0x30 0 0 0 = 0b0011_000000000000_0000000000000000#32 ∧
    decode .command [0x30, 0, 0, 0] = .instr .flush [] := by decide

theorem test_decode_crcq_word :
    wordOfBytes 0x4A 0xBC 0 1 = 0b0100_101010111100_0000000000000001#32 ∧
    decode .command [0x4A, 0xBC, 0, 1, 7] = .instr (.crcq 0xABC [7]) [] := by decide

theorem test_decode_rejects_by_name :
    decode .command [0, 0, 0, 0] = .rejected (.reservedOp 0) [] ∧
    decode .command [0x50, 0, 0, 1, 7, 8] = .rejected (.reservedOp 5) [8] ∧
    decode .command [0x20, 1, 0, 1, 0xAA] = .rejected (.argNotZero 2) [] ∧
    decode .command [0x10, 0, 0, 1, 7] = .rejected (.countNotZero 1) [] ∧
    decode (.signature 0 false false) [0x88, 0, 0x19, 0] = .rejected .unknownTag [] ∧
    decode .chunk [0x23, 0x48, 0x53] = .rejected .noPrefix [0x23, 0x48, 0x53] := by decide

theorem test_table_words_decode :
    decodeTableWord 32 0x10000000 = some .reset ∧ decodeTableWord 32 0x20000002 = some (.push [0, 0]) ∧
    decodeTableWord 32 0x30000000 = some .flush ∧ decodeTableWord 32 0x40030001 = some (.crcq 3 [0]) := by
  decide +kernel

theorem test_table_rows_of_tags_decode :
    decodeTableWord 32 0x88002000 = some (.tagIgnoredHeater 0 false false) ∧
    decodeTableWord 32 0x88001800 = some (.tagChStatus 0 false false) ∧
    decodeTableWord 32 0x9000FF00 = some (.tagHcStatus 0 false false) ∧
    decodeTableWord 32 0x88003400 = some (.tagDhwStatus 0 false false) ∧
    decodeTableWord 32 0x90000600 = some (.tagDatetime 0 false false) ∧
    decodeTableWord 24 0x234852 = some (.diagPrefixHr []) ∧ decodeTableWord 32 0x88001900 = none := by
  decide +kernel

/-- The host's placement from reset: a tag in the buffer is served by its row. -/
theorem test_fetch_word_serves_tag :
    answer (step (State.reset.withFetchWord 32 0x88003400)) =
      some ⟨.wait, some .dhwStatus, false, false, false, .none, 0, 4, 0, []⟩ := by decide +kernel

/-- The host's placement from reset: the prefix chunk is the prefix row. -/
theorem test_fetch_word_runs_prefix :
    answer (step (State.reset.withFetchWord 24 0x234852)) =
      some ⟨.noMatch, none, false, true, false, .none, 0, 0, 0, []⟩ := by decide +kernel

/-- The host's placement from reset: a PUSH of zero bytes and a PUSH of five. -/
theorem test_fetch_word_runs_push :
    answer (step (State.reset.withFetchWord 32 0x20000000)) =
      some ⟨.noMatch, none, false, false, false, .none, 0, 0, 0, []⟩ ∧
    answer (step (State.reset.withFetchWord 32 0x20000005)) =
      some ⟨.noMatch, none, false, false, false, .none, 0, 5, 0, []⟩ := by decide +kernel

/-! ### Vectors of spec/95_test_vectors.md -/

/-- C-1, with its packed words. -/
theorem test_reset_c1 : seen (exec .reset (st cfg40 [0x88, 0, 0x18, 0] [])) =
    some (some (Response.blank .ack 0), [], 0) ∧
    statusWord (Response.blank .ack 0) = 0x00000076 := by decide +kernel

/-- C-2. -/
theorem test_flush_c2 : seen (exec .flush (st cfg40 [0x88, 0, 0x34, 0, 0x3C] [])) =
    some (some (Response.blank .ack 0), [], 0) := by decide +kernel

/-- C-4: RESET with N = 1 is ILLEGAL and its data byte is consumed. -/
theorem test_illegal_c4 : seen (step (st cfg40 [1, 2] [0x10, 0, 0, 1, 7])) =
    some (some (Response.blank .illegal 2), [1, 2], 0) ∧
    statusWord (Response.blank .illegal 2) = 0x0000007F := by decide +kernel

/-- V8 through CRCQ (candidate table), and the packed status of P4 row 2. -/
theorem test_crcq_v8 : (answer (exec (.crcq 14 dt) (st cfg40 [0x88, 0, 0x18, 0] []))).map statusWord =
    some 0x005A0475 := by decide +kernel

/-- V4, V5, V2: the three failure reasons. -/
theorem test_crc_reasons :
    crcCheck candidateCrcTable [0x41, 0x42, 0] 3 = ⟨false, .mismatch, 0x41⟩ ∧
    crcCheck candidateCrcTable [0x41] 3 = ⟨false, .range, 0⟩ ∧
    crcCheck candidateCrcTable [0, 0] 2 = ⟨false, .short, 0⟩ := by decide +kernel

/-- T11: a later frame of higher priority wins, and the other is dropped. -/
theorem test_push_t11 : seen (exec (.push (dt ++ hc)) (st cfg40 [] [])) =
    some (some ⟨.frameOk, some .hcStatus, false, false, true, .none, 0xDE, 0, 14, hc⟩, [], 1) := by
  decide +kernel

/-- P5 row 7: a trim before the scan, OVF set. -/
theorem test_push_p5 :
    (answer (exec (.push (dt.take 8)) (st { cfg40 with bufCap := some 40 } (List.replicate 40 0x11) []))).map
      (fun r => (statusWord r, infoWord r)) = some (0x00000141, some 0x00200028) := by decide +kernel

/-- T7: kind 0 complete. -/
theorem test_tag_ignored : seen (exec (.tagIgnoredHeater 0 false false) (st cfg40 ign [])) =
    some (some ⟨.ignored, some .ignoredHeater, false, false, false, .none, 0, 0, 0, ign⟩, [], 0) := by
  decide +kernel

/-- T8: 30 bytes of CH wait, the frame with its 31st byte passes. -/
theorem test_tag_ch :
    answer (exec (.tagChStatus 0 false false) (st cfg40 (ch.take 30) [])) =
      some ⟨.wait, some .chStatus, false, false, false, .none, 0, 30, 0, []⟩ ∧
    seen (exec (.tagChStatus 0 false false) (st cfg40 ch [])) =
      some (some ⟨.frameOk, some .chStatus, false, false, true, .none, 0xBB, 0, 0, ch⟩, [], 1) := by
  decide +kernel

/-- T15: CH at the odd nibble 1. -/
theorem test_tag_ch_odd_nibble :
    answer (exec (.tagChStatus 1 false false) (st { cfg40 with matchGrid := .nibble }
      (bytesOfNibbles ([0] ++ nibbles ch ++ [0])) [])) =
      some ⟨.frameOk, some .chStatus, false, false, true, .none, 0xBB, 0, 1, ch⟩ := by decide +kernel

/-- T26. -/
theorem test_tag_hc : seen (exec (.tagHcStatus 0 true false) (st cfg40 hc [])) =
    some (some ⟨.frameOk, some .hcStatus, true, false, true, .none, 0xDE, 0, 0, hc⟩, [], 1) := by
  decide +kernel

/-- P3 row 2: DHWb fails. -/
theorem test_tag_dhw_bad : seen (exec (.tagDhwStatus 0 false false) (st cfg40 (dhw.set 5 0x06) [])) =
    some (some ⟨.frameBad, some .dhwStatus, false, false, false, .mismatch, 0xE0, 0, 0, dhw.set 5 0x06⟩, [], 0) := by
  decide +kernel

/-- T5: bytes before and after the frame are dropped. -/
theorem test_tag_dt : seen (exec (.tagDatetime 2 false true) (st cfg40 ([0xAA, 0xBB] ++ dt ++ [0xCC]) [])) =
    some (some ⟨.frameOk, some .datetime, false, true, true, .none, 0x5A, 0, 2, dt⟩, [], 1) := by
  decide +kernel

/-- T13 and T20: the prefix chunk is left out, or appended. -/
theorem test_diag_t13_t20 :
    seen (exec (.push [0x23, 0x48, 0x52, 0x20, 0x31]) (st cfg40 [] [])) =
      some (some ⟨.noMatch, none, false, true, false, .none, 0, 0, 0, []⟩, [], 0) ∧
    seen (exec (.diagPrefixHr [0x88, 0, 0x18, 0]) (st { cfg40 with diagAppend := true } [] [])) =
      some (some ⟨.wait, some .chStatus, false, true, false, .none, 0, 7, 3, []⟩,
        [0x23, 0x48, 0x52, 0x88, 0, 0x18, 0], 0) := by decide +kernel

/-- The pseudo-form of R76, and the dump row 80 of R131. -/
theorem test_assemble_pseudo_form :
    assemble "CRCQ 14 : 90 00*3".toList = some (.crcq 14 [0x90, 0, 0, 0]) ∧
    assemble "PUSH".toList = some (.push []) ∧ assemble "FLUSH 00".toList = none := by decide +kernel

theorem test_candidate_dump_row_80 :
    (List.range 16).map (fun i => crcLookup candidateCrcTable (BitVec.ofNat 8 (0x80 + i))) =
      [0x19, 0x1B, 0x1D, 0x1F, 0x11, 0x13, 0x15, 0x17, 0x09, 0x0B, 0x0D, 0x0F, 0x01, 0x03, 0x05, 0x07] := by
  decide +kernel

/-- S4: the date bytes of frame DT through the informative field map. -/
theorem test_field_map_reads_dt :
    datetimeFields.map (fun row => row.raw dt) = [0x17, 0x05, 0x0A, 0x03, 0x1E, 0x00] ∧
    (FieldRow.mk .chStatus 5 6 0 "").raw ch = 450 := by decide +kernel

/-! ### Witnesses: concrete states and operands that meet every statement's hypotheses -/

/-- An identity table, a permutation. -/
def identityTable : Vector Byte 256 := Vector.ofFn fun i => BitVec.ofNat 8 i.val

theorem identityTable_lookup (a : Byte) : crcLookup identityTable a = a := by
  simp [identityTable, crcLookup]

theorem test_witness_CommandDecodeOfEncode :
    (Instr.crcq 4095 [1, 2]).isCommand = true ∧ (Instr.crcq 4095 [1, 2]).wf = true := by decide

theorem test_witness_EveryFormatDecodeOfEncode :
    (Instr.diagPrefixHr [0x20]).wf = true ∧ (Instr.tagHcStatus 5 true true).wf = true := by decide

theorem test_witness_CommandEncodeOfDecode :
    decode .command [0x4F, 0xFF, 0, 2, 8, 9, 7] = .instr (.crcq 4095 [8, 9]) [7] := by decide

theorem test_witness_CommandStreamStaysInStep :
    ([7] : List Byte).length = (countField 0x50000001).toNat ∧
    ([7] : List Byte).length < (countField 0x20000002).toNat ∧ ([0x10, 0, 0] : List Byte).length < 4 := by decide

theorem test_witness_StatusWordLosesNothing :
    statusWord ⟨.wait, some .chStatus, true, false, false, .none, 0, 5, 1, []⟩ =
      statusWord ⟨.wait, some .chStatus, true, false, false, .none, 0, 9, 2, []⟩ := by decide +kernel

theorem test_witness_PackedResponseLayout :
    (packResponse (Response.blank .noMatch 65535)).map (fun p => (p.status, p.info)) = some (0x70, 0xFFFF) ∧
    packResponse (Response.blank .noMatch 65536) = none := by decide +kernel

theorem test_witness_PushTextAssembles : ([0x88, 0x0F] : List Byte).length ≤ 65535 := by decide

theorem test_witness_FieldMapLiesInBody :
    FieldRow.mk .datetime 9 9 0 "second" ∈ fieldMap := by decide +kernel

theorem test_witness_StepRunsDecodedCommand :
    decode .command (st cfg40 [] [0x20, 0, 0, 1, 5, 6]).cmdIn = .instr (.push [5]) [6] := by decide

theorem test_witness_StepWaitsForWholeCommand :
    decode .command (st cfg40 [] [0x20, 0, 0, 2, 5]).cmdIn = .incomplete := by decide

theorem test_witness_CommandStreamRunsInOrder :
    ∀ i ∈ [Instr.reset, .push [0x88], .crcq 3 [1, 1], .flush], i.isCommand = true ∧ i.wf = true := by decide

theorem test_witness_OutputsAreNeverRead :
    (st cfg40 [1] []).cfg = (⟨cfg40, [1], [2], [Response.blank .ack 0], []⟩ : State).cfg ∧
    (st cfg40 [1] []).buf = (⟨cfg40, [1], [2], [Response.blank .ack 0], []⟩ : State).buf := ⟨rfl, rfl⟩

/-- A legal word and an illegal one. -/
theorem test_witness_IllegalExactlyWhenNotLegal :
    (st cfg40 [3] [0x20, 0, 0, 1, 7, 9]).presents 0x20000001 [7] [9] ∧ legalWord cfg40 0x20000001 ∧
    (st cfg40 [3] [0x60, 0, 0, 1, 7, 9]).presents 0x60000001 [7] [9] ∧ ¬ legalWord cfg40 0x60000001 := by
  unfold State.presents legalWord; decide +kernel

theorem test_witness_IllegalCommandAnswer :
    (st cfg40 [3] [0x30, 0, 0, 1, 7]).presents 0x30000001 [7] [] ∧ ¬ legalWord cfg40 0x30000001 := by
  unfold State.presents legalWord; decide +kernel

/-- N one above `CHUNK_MAX`, N equal to it, and a non-zero ARG, on an instance with `CHUNK_MAX = 1`. -/
theorem test_witness_PushLegality :
    ((st { cfg40 with chunkMax := 1 } [] [0x20, 0, 0, 2, 7, 8]).presents 0x20000002 [7, 8] [] ∧
      opField 0x20000002 = 2 ∧ 1 < (countField 0x20000002).toNat) ∧
    ((st { cfg40 with chunkMax := 1 } [] [0x20, 0, 0, 1, 7]).presents 0x20000001 [7] [] ∧
      opField 0x20000001 = 2 ∧ (countField 0x20000001).toNat = 1 ∧ argField 0x20000001 = 0) ∧
    ((st { cfg40 with chunkMax := 1 } [] [0x20, 1, 0, 1, 7]).presents 0x20010001 [7] [] ∧
      opField 0x20010001 = 2 ∧ argField 0x20010001 ≠ 0) := by
  unfold State.presents; decide +kernel

theorem test_witness_ResetCommand :
    (st cfg40 [] [0x10, 0, 0, 1, 7]).presents 0x10000001 [7] [] ∧ opField 0x10000001 = 1 ∧
    countField 0x10000001 ≠ 0 := by
  unfold State.presents; decide +kernel

theorem test_witness_FlushCommand :
    (st cfg40 [] [0x30, 1, 0, 0]).presents 0x30010000 [] [] ∧ opField 0x30010000 = 3 ∧
    argField 0x30010000 ≠ 0 := by
  unfold State.presents; decide +kernel

theorem test_witness_ResetState : exec .reset (st cfg40 [1] []) =
    .next { st cfg40 [] [] with responses := [Response.blank .ack 0] } := rfl

theorem test_witness_NothingSurvivesReset : ∃ t, execAll [.reset, .push [1]] (st cfg40 [1] []) = .next t :=
  ⟨_, rfl⟩

/-- SHORT at 2, RANGE one byte short, and the full check at the least payload, pass and fail. -/
theorem test_witness_CrcCheckMeaning :
    (2 < 3) ∧ (3 ≤ 3 ∧ ([0x41] : List Byte).length < 3 - 1) ∧
    (3 ≤ 3 ∧ 3 - 1 ≤ ([0x41, 0x41] : List Byte).length ∧
      ∃ acc : Nat → Byte, acc 0 = 0 ∧
        (∀ i, i ≤ 3 - 3 → acc (i + 1) = crcLookup candidateCrcTable (acc i) ^^^ [0x41, 0x41].getD i 0) ∧
        [0x41, 0x41].getD (3 - 2) 0 = acc (3 - 2)) ∧
    (∃ acc : Nat → Byte, acc 0 = 0 ∧
        (∀ i, i ≤ 3 - 3 → acc (i + 1) = crcLookup candidateCrcTable (acc i) ^^^ [0x41, 0x42].getD i 0) ∧
        [0x41, 0x42].getD (3 - 2) 0 ≠ acc (3 - 2)) := by
  refine ⟨by decide, by decide, ⟨by decide, by decide, fun n => if n = 0 then 0 else 0x41, rfl, ?_, rfl⟩,
    fun n => if n = 0 then 0 else 0x41, rfl, ?_, by decide⟩
  · intro i hi
    have : i = 0 := by omega
    subst this; decide +kernel
  · intro i hi
    have : i = 0 := by omega
    subst this; decide +kernel

theorem test_witness_CrcIgnoresExtraBytes :
    3 < ([0x41, 0x41, 0, 9] : List Byte).length ∧ 3 ≤ 3 ∧ ([0x41, 0x41] : List Byte).length = 3 - 1 := by decide

theorem test_witness_CrcByteChangeIsMismatch :
    (crcCheck candidateCrcTable [0x41, 0x41, 0] 3).ok = true ∧
    ([0x41, 0x41, 0] : List Byte)[3 - 2]? ≠ some 0x42 := by decide +kernel

theorem test_witness_CrcDetectsOneByteError :
    tableInjective identityTable ∧ (crcCheck identityTable [0x41, 0x41, 0] 3).ok = true ∧ 0 + 3 ≤ 3 ∧
    ([0x41, 0x41, 0] : List Byte)[0]? ≠ some 0x40 := by
  refine ⟨fun a b h => ?_, by decide +kernel, by decide, by decide⟩
  simpa [identityTable_lookup] using h

/-- A table that merges two entries, and a permutation. -/
theorem test_witness_CrcTableConstraint :
    (0 < 8 ∧ crcLookup (Vector.replicate 256 0) 4 = crcLookup (Vector.replicate 256 0) (4 ^^^ BitVec.ofNat 8 (2 ^ 0))) ∧
    tableInjective identityTable := by
  refine ⟨⟨by decide, by simp [crcLookup]⟩, fun a b h => ?_⟩
  simpa [identityTable_lookup] using h

theorem test_witness_CandidateAccumulatorIsLinear :
    ([1, 2] : List Byte).length = ([3, 4] : List Byte).length := rfl

theorem test_witness_CandidateCompensatingError :
    0 + 4 ≤ 4 ∧ 4 - 1 ≤ ([0x80, 0, 0x19] : List Byte).length := by decide

theorem test_witness_CrcqResult :
    crcCheck cfg40.crcTable [0x41, 0x41] 3 = ⟨true, .none, 0x41⟩ := by decide +kernel

/-- FULL on the BYTE grid, and on the NIBBLE grid at an odd position; WAIT one byte short. -/
theorem test_witness_ExtractedFrameIsWhole :
    scan .byte ([1] ++ dt) = .full .datetime 1 dt ∧
    scan .nibble (bytesOfNibbles ([0] ++ nibbles dt ++ [0])) = .full .datetime 1 dt := by decide +kernel

theorem test_witness_ScanFollowsPriority :
    (find .byte (dt ++ ch.take 30) Kind.chStatus.tag = some 14 ∧
      find .byte (dt ++ ch.take 30) Kind.ignoredHeater.tag = none ∧
      complete .byte (dt ++ ch.take 30) 14 31 = false) ∧
    (find .byte (dt ++ ch) Kind.chStatus.tag = some 14 ∧ complete .byte (dt ++ ch) 14 31 = true) := by
  decide +kernel

theorem test_witness_AppendKeepsFoundTags :
    find .byte dt Kind.datetime.tag = some 0 ∧
    (find .byte (dt.take 3) Kind.datetime.tag = none ∧
      find .byte (dt.take 3 ++ dt.drop 3) Kind.datetime.tag = some 0) ∧
    (find .nibble (dt.take 3) Kind.datetime.tag = none ∧
      find .nibble (dt.take 3 ++ dt.drop 3) Kind.datetime.tag = some 0) := by decide +kernel

/-- BYTE grid: a lone kind-1 tag with 30 bytes, one beside a kind-0 tag with 30 bytes from it on, and one after a
kind-0 frame of exactly 31. -/
theorem test_witness_PartialFrameWaits :
    (find .byte (ch.take 30) Kind.chStatus.tag = some 0 ∧ (ch.take 30).length < 0 + 31 ∧
      find .byte (ch.take 30) Kind.ignoredHeater.tag = none) ∧
    (find .byte (ign.take 26 ++ ch.take 4) Kind.chStatus.tag = some 26 ∧
      find .byte (ign.take 26 ++ ch.take 4) Kind.ignoredHeater.tag = some 0 ∧
      (ign.take 26 ++ ch.take 4).length = 30) ∧
    (find .byte (ign.take 27 ++ ch.take 4) Kind.chStatus.tag = some 27 ∧
      find .byte (ign.take 27 ++ ch.take 4) Kind.ignoredHeater.tag = some 0 ∧
      (ign.take 27 ++ ch.take 4).length = 31) := by decide +kernel

/-- NIBBLE grid, at the odd position 1: the same three cases. -/
theorem test_witness_PartialFrameWaits_nibble :
    (find .nibble (bytesOfNibbles ([0] ++ nibbles (ch.take 30) ++ [0])) Kind.chStatus.tag = some 1 ∧
      2 * (bytesOfNibbles ([0] ++ nibbles (ch.take 30) ++ [0])).length < 1 + 62 ∧
      find .nibble (bytesOfNibbles ([0] ++ nibbles (ch.take 30) ++ [0])) Kind.ignoredHeater.tag = none) ∧
    (find .nibble (bytesOfNibbles ([0] ++ nibbles (ign.take 26 ++ ch.take 4) ++ [0])) Kind.chStatus.tag =
        some 53 ∧
      find .nibble (bytesOfNibbles ([0] ++ nibbles (ign.take 26 ++ ch.take 4) ++ [0]))
        Kind.ignoredHeater.tag = some 1 ∧
      2 * (bytesOfNibbles ([0] ++ nibbles (ign.take 26 ++ ch.take 4) ++ [0])).length < 1 + 62) ∧
    (find .nibble (bytesOfNibbles ([0] ++ nibbles (ign.take 27 ++ ch.take 4) ++ [0])) Kind.chStatus.tag =
        some 55 ∧
      find .nibble (bytesOfNibbles ([0] ++ nibbles (ign.take 27 ++ ch.take 4) ++ [0]))
        Kind.ignoredHeater.tag = some 1 ∧
      1 + 62 ≤ 2 * (bytesOfNibbles ([0] ++ nibbles (ign.take 27 ++ ch.take 4) ++ [0])).length) := by
  decide +kernel

/-- A complete kind-1 frame and then its tag again: the hypotheses of the literal reading of R116. -/
theorem test_witness_PartialFrameWaitsToTheLetter :
    ((ch ++ ch.take 4).drop 31).take 4 = Kind.chStatus.tag ∧ (ch ++ ch.take 4).length < 31 + 31 := by
  decide +kernel

theorem test_witness_TrimKeepsNewest : 2 < ([1, 2, 3] : List Byte).length ∧ ([1, 2] : List Byte).length ≤ 2 := by
  decide

/-- A chunk of exactly `CHUNK_MAX` bytes with no prefix, and a prefix chunk under each `DIAG_APPEND`. -/
theorem test_witness_PushFollowsOutcomeTable :
    ((List.replicate 40 (0 : Byte)).length ≤ cfg40.chunkMax ∧ diagPrefix (List.replicate 40 0) = false) ∧
    (diagTag.length ≤ cfg40.chunkMax ∧ diagPrefix diagTag = true ∧ cfg40.diagAppend = false) ∧
    (Config.diagAppend { cfg40 with diagAppend := true } = true) := by decide +kernel

theorem test_witness_DiagnosticPrefixRow :
    diagPrefix [0x23, 0x48, 0x52] = true ∧ (List.replicate 37 (0 : Byte)).length + 3 ≤ cfg40.chunkMax ∧
    cfg40.chunkMax < (List.replicate 38 (0 : Byte)).length + 3 := by decide +kernel

/-- 30 and 31 bytes from the position on. -/
theorem test_witness_IgnoredHeaterRow :
    complete cfg40.matchGrid (ign.take 30) 0 31 = false ∧ complete cfg40.matchGrid ign 0 31 = true := by
  decide +kernel

/-- One byte short and whole at each declared length, a frame that passes and a frame that fails. -/
theorem test_witness_DecodedKindRows :
    (complete cfg40.matchGrid (ch.take 30) 0 31 = false ∧ complete cfg40.matchGrid ch 0 31 = true) ∧
    (complete cfg40.matchGrid (hc.take 13) 0 14 = false ∧ complete cfg40.matchGrid hc 0 14 = true) ∧
    (complete cfg40.matchGrid (dhw.take 22) 0 23 = false ∧ complete cfg40.matchGrid dhw 0 23 = true) ∧
    (crcCheck cfg40.crcTable (extract .byte dhw 0 23) 23).ok = true ∧
    (crcCheck cfg40.crcTable (extract .byte (dhw.set 5 6) 0 23) 23).ok = false := by decide +kernel

/-- An ordinary chunk that completes a tag; and a prefix chunk, appended and left out, where a tag is selected. -/
theorem test_witness_PushRunsSelectedRow :
    ((dt.drop 4).length ≤ cfg40.chunkMax ∧ diagPrefix (dt.drop 4) = false ∧
      dt = trimmed cfg40.bufCap (dt.take 4 ++ dt.drop 4) ∧ find .byte dt Kind.datetime.tag = some 0 ∧
      ∀ k ∈ Kind.priority, k.index < Kind.datetime.index → find .byte dt k.tag = none) ∧
    ((diagTag ++ ign.take 4).length ≤ cfg40.chunkMax ∧ diagPrefix (diagTag ++ ign.take 4) = true ∧
      Config.diagAppend { cfg40 with diagAppend := true } = true ∧
      find .byte (trimmed cfg40.bufCap ([] ++ (diagTag ++ ign.take 4))) Kind.ignoredHeater.tag = some 3) ∧
    (diagTag.length ≤ cfg40.chunkMax ∧ diagPrefix diagTag = true ∧ cfg40.diagAppend = false ∧
      find .byte (trimmed cfg40.bufCap (ign.take 4)) Kind.ignoredHeater.tag = some 0) := by decide +kernel

/-- A PUSH that delivers a frame and one that does not. -/
theorem test_witness_DecoderPortOnlyOnFrameOk :
    (Instr.push dt).isCommand = true ∧
    (answer (exec (.push dt) (st cfg40 [] []))).map Response.evt = some .frameOk ∧
    (answer (exec (.push dhw) (st cfg40 [] []))).map Response.evt = some .frameOk ∧
    (answer (exec .flush (st cfg40 [] []))).map Response.evt = some .ack := by decide +kernel

/-- Consuming and keeping. -/
theorem test_witness_OneFramePerPush :
    (answer (exec (.push (dt ++ dt)) (st cfg40 [] []))).map Response.evt = some .frameOk ∧
    (answer (exec (.push [0x90]) (st cfg40 [1] []))).map Response.evt = some .noMatch := by decide +kernel

theorem test_witness_DutifulRunIsNeverIllegal :
    (∀ i ∈ [Instr.push (List.replicate 40 0), .crcq 0 [], .flush],
      i.isCommand = true ∧ keepsChunkDuty cfg40 i = true) ∧
    endsWithFlush [.push (List.replicate 40 0), .crcq 0 [], .flush] = true := by decide +kernel

/-- A stream that ends with a partial tag, cut inside it. -/
theorem test_witness_TaglessStreamIsKeptUnderEveryCut :
    cfg40.bufCap = none ∧ IsChunking cfg40 [1, 0x88, 0, 0x18] [[1, 0x88], [], [0, 0x18]] ∧
    (∀ c ∈ ([[1, 0x88], [], [0, 0x18]] : List (List Byte)), diagPrefix c = false) ∧
    ∀ k ∈ Kind.priority, find .byte [1, 0x88, 0, 0x18] k.tag = none := by
  unfold IsChunking; decide +kernel

/-- A pending frame: settled, and within a finite capacity. -/
theorem settled_pending : (st { cfg40 with bufCap := some 71 } (ch.take 30) []).Settled :=
  .inr (.inr ⟨.chStatus, 0, by decide +kernel⟩)

theorem test_witness_EmptyPushChangesNothing :
    (st { cfg40 with bufCap := some 71 } (ch.take 30) []).Settled ∧
    (st { cfg40 with bufCap := some 71 } (ch.take 30) []).WithinCap := by
  refine ⟨settled_pending, fun cap h => ?_⟩
  simp [st] at h
  subst h; decide

/-- Steps that complete the pending frame. -/
theorem test_witness_StepKeepsBufferSettled :
    (st { cfg40 with bufCap := some 71 } (ch.take 30) [0x20, 0, 0, 1, 0]).Settled ∧
    ∃ t, step (st { cfg40 with bufCap := some 71 } (ch.take 30) [0x20, 0, 0, 1, 0]) = .next t :=
  ⟨settled_pending, _, rfl⟩

theorem test_witness_StepKeepsBufferWithinCap :
    (st { cfg40 with bufCap := some 71 } (ch.take 30) [0x20, 0, 0, 1, 0]).WithinCap ∧
    ∃ t, step (st { cfg40 with bufCap := some 71 } (ch.take 30) [0x20, 0, 0, 1, 0]) = .next t := by
  refine ⟨fun cap h => ?_, _, rfl⟩
  simp [st] at h
  subst h; decide

theorem test_witness_StepKeepsConfiguration :
    ∃ t, step (st cfg40 [1] [0x30, 0, 0, 0]) = .next t := ⟨_, rfl⟩

theorem test_witness_StepKeepsResponsesLawful :
    (∀ r ∈ [Response.blank .ack 0], r.Lawful) ∧
    ∃ t, step { st cfg40 [] [0x40, 0, 0, 0] with responses := [Response.blank .ack 0] } = .next t :=
  ⟨by simp [Response.Lawful, Response.blank, expectedFrameLength], _, rfl⟩

/-- Twin states whose buffers differ: 80 bytes without a tag, and the newest 71 of them. -/
theorem test_witness_BoundedBufferSimulatesUnbounded :
    cfg40.chunkMax + 31 ≤ 71 ∧
    State.BoundedTwin 71 (st { cfg40 with bufCap := some 71 } (List.replicate 71 0x11) [0x20, 0, 0, 1, 7])
      (st cfg40 (List.replicate 80 0x11) [0x20, 0, 0, 1, 7]) ∧
    (st cfg40 (List.replicate 80 0x11) [0x20, 0, 0, 1, 7]).Settled := by
  refine ⟨by decide, ⟨rfl, rfl, rfl, by decide +kernel, rfl, rfl⟩, .inr (.inl (by decide +kernel))⟩

theorem test_witness_CapacityDoesNotShowInFrames : cfg40.bufCap = none ∧ cfg40.chunkMax + 31 ≤ 71 := by decide

end Sys2Proof.Tests
end

section
/-! The step on a command taken whole from the front of the command port (spec/00_scope.md R9, spec/30_encoding.md
R75). -/

namespace Sys2Proof.Machine

/-- The equation of `step` for a whole command at the port. -/
theorem step_of_decode_instr {s : State} {i : Instr} {rest : List Byte}
    (h : decode .command s.cmdIn = .instr i rest) : step s = exec i (s.withCmdIn rest) := by
  simp only [step, h]

/-- Settles O12: the equation of `step` for a whole command, where `State.withCmdIn` is the update of the port alone. -/
theorem stepRunsDecodedCommand : Obligations.StepRunsDecodedCommand := by
  intro s i rest hdecode
  calc step s = exec i (s.withCmdIn rest) := step_of_decode_instr hdecode
    _ = exec i { s with cmdIn := rest } := rfl

end Sys2Proof.Machine
end

section
/-! What one instruction does, said once. An instruction reads the configuration and the buffer, and nothing else of
the state; it leaves a buffer, answers one response and may drive the decoder port (spec/10_state.md R20, R26, R31).
Both the noninterference of outputs and the invariants of a step follow from `exec_effect`. -/

namespace Sys2Proof.Machine

/-! ### Effects -/

/-- What an instruction does: the buffer it leaves, the response it answers and what it drives on the decoder port. -/
structure Effect where
  buf : List Byte
  response : Response
  driven : List DecoderOutput

/-- The state after an instruction with a given effect: outputs are appended, the rest of the state is kept. -/
def State.finish (s : State) (e : Effect) : State :=
  { s with buf := e.buf, responses := s.responses ++ [e.response], decoderOut := s.decoderOut ++ e.driven }

section
variable (s : State) (e : Effect)

@[simp] theorem State.finish_cfg : (s.finish e).cfg = s.cfg := rfl
@[simp] theorem State.finish_buf : (s.finish e).buf = e.buf := rfl
@[simp] theorem State.finish_responses : (s.finish e).responses = s.responses ++ [e.response] := rfl
@[simp] theorem State.finish_decoderOut : (s.finish e).decoderOut = s.decoderOut ++ e.driven := rfl

/-! An effect overwrites the buffer, so an earlier write to the buffer does not show. -/

@[simp] theorem State.finish_clear : s.clear.finish e = s.finish e := rfl
@[simp] theorem State.finish_trim : s.trim.finish e = s.finish e := rfl

end

/-- Two states look alike to an instruction: same configuration and same buffer, whatever the command port holds and
whatever was output before. -/
structure State.SameView (u s : State) : Prop where
  cfg : u.cfg = s.cfg
  buf : u.buf = s.buf

theorem State.SameView.refl (s : State) : s.SameView s := ⟨rfl, rfl⟩

theorem State.SameView.trim {u s : State} (h : u.SameView s) : u.trim.SameView s.trim :=
  ⟨h.cfg, by simp only [State.trim_buf, h.cfg, h.buf]⟩

theorem State.SameView.append {u s : State} (h : u.SameView s) (chunk : List Byte) :
    (u.append chunk).SameView (s.append chunk) :=
  ⟨h.cfg, by simp only [State.append_buf, h.buf]⟩

/-- From every state that looks like `s`, the run completes with the same effect `e`. -/
def HasEffect (run : State → Host.Outcome State Fault Refusal) (s : State) (e : Effect) : Prop :=
  ∀ u : State, u.SameView s → run u = .next (u.finish e)

/-- What an instruction can leave in a buffer `before`: the same bytes, none, or what the trim leaves of the bytes
received (R47, R107, R108, R111, R150, R151, R171). -/
inductive BufferAfter (cap : Option Nat) (before : List Byte) : List Byte → Prop
  | kept : BufferAfter cap before before
  | cleared : BufferAfter cap before []
  | trimmed (received : List Byte) : BufferAfter cap before (trimmed cap received)

theorem BufferAfter.of_kept_or_cleared {cap : Option Nat} {before after : List Byte}
    (h : after = before ∨ after = []) : BufferAfter cap before after := by
  rcases h with rfl | rfl
  · exact .kept
  · exact .cleared

/-! ### Answers that only respond -/

theorem State.respond_eq_finish (s : State) (r : Response) : s.respond r = s.finish ⟨s.buf, r, []⟩ := by
  simp [State.respond, State.finish]

/-- An ILLEGAL answer keeps the buffer (R171). -/
theorem raiseIllegal_effect (s : State) :
    ∃ e, e.buf = s.buf ∧ HasEffect (fun u => .next u.raiseIllegal) s e := by
  refine ⟨⟨s.buf, Response.blank .illegal s.buf.length, []⟩, rfl, fun u h => ?_⟩
  simp only [State.raiseIllegal, State.respond_eq_finish, h.buf]

/-- RESET and FLUSH empty the buffer (R150, R151). -/
theorem clear_acknowledge_effect (s : State) :
    ∃ e, BufferAfter s.cfg.bufCap s.buf e.buf ∧ HasEffect (fun u => .next u.clear.acknowledge) s e := by
  refine ⟨⟨[], Response.blank .ack 0, []⟩, .cleared, fun u _ => ?_⟩
  simp only [State.acknowledge, State.respond_eq_finish, State.finish_clear, State.clear_buf, List.length_nil]

/-- CRCQ keeps the buffer (R140). -/
theorem execCrcq_effect (len : Nat) (payload : List Byte) (s : State) :
    ∃ e, BufferAfter s.cfg.bufCap s.buf e.buf ∧ HasEffect (execCrcq len payload) s e := by
  let c := crcCheck s.cfg.crcTable payload len
  refine ⟨⟨s.buf, { Response.blank .crcResult s.buf.length with
    crcOk := c.ok, crcReason := c.reason, crcVal := c.val }, []⟩, .kept, fun u h => ?_⟩
  simp only [execCrcq, State.respond_eq_finish, h.cfg, h.buf, c]

/-- NOMATCH keeps the buffer (R111). -/
theorem reportNoMatch_effect (ovf diag : Bool) (s : State) :
    ∃ e, e.buf = s.buf ∧ HasEffect (fun u => .next (u.reportNoMatch ovf diag)) s e := by
  refine ⟨⟨s.buf, { Response.blank .noMatch s.buf.length with ovf := ovf, diag := diag }, []⟩, rfl, fun u h => ?_⟩
  simp only [State.reportNoMatch, State.respond_eq_finish, h.buf]

/-! ### A selected signature -/

/-- WAIT over a buffer (R107). -/
def Effect.wait (buf : List Byte) (k : Kind) (pos : Nat) (ovf diag : Bool) : Effect :=
  ⟨buf, { Response.blank .wait buf.length with kind := some k, ovf := ovf, diag := diag, matchOff := pos }, []⟩

/-- A complete frame of the ignored kind (R109). -/
def Effect.ignore (k : Kind) (pos : Nat) (ovf diag : Bool) (frame : List Byte) : Effect :=
  ⟨[], { Response.blank .ignored 0 with
    kind := some k, ovf := ovf, diag := diag, matchOff := pos, frame := frame }, []⟩

/-- A complete frame of a decoded kind, by its CRC result (R110, R112, R113). -/
def Effect.check (c : CrcResult) (k : Kind) (pos : Nat) (ovf diag : Bool) (frame : List Byte) : Effect :=
  ⟨[], { Response.blank (if c.ok then .frameOk else .frameBad) 0 with
    kind := some k, ovf := ovf, diag := diag, crcOk := c.ok, crcReason := c.reason, crcVal := c.val,
    matchOff := pos, frame := frame }, if c.ok then [⟨k, k.length, frame⟩] else []⟩

theorem awaitFrame_eq_finish (s : State) (k : Kind) (pos : Nat) (ovf diag : Bool) :
    s.awaitFrame k pos ovf diag = s.finish (.wait s.buf k pos ovf diag) :=
  s.respond_eq_finish _

theorem ignoreFrame_eq_finish (s : State) (k : Kind) (pos : Nat) (ovf diag : Bool) (frame : List Byte) :
    s.ignoreFrame k pos ovf diag frame = s.finish (.ignore k pos ovf diag frame) :=
  s.clear.respond_eq_finish _

theorem checkFrame_eq_finish (s : State) (k : Kind) (pos : Nat) (ovf diag : Bool) (frame : List Byte) :
    s.checkFrame k pos ovf diag frame =
      s.finish (.check (crcCheck s.cfg.crcTable frame k.length) k pos ovf diag frame) := by
  cases hok : (crcCheck s.cfg.crcTable frame k.length).ok with
  | true => simp [State.checkFrame, Effect.check, hok, State.finish, State.respond, State.driveDecoder, State.clear]
  | false => simp [State.checkFrame, Effect.check, hok, State.respond_eq_finish]

/-- Serving a selected signature keeps the buffer or empties it; which, and how it is answered, is settled by the
configuration and the buffer. -/
theorem serveMatch_effect (k : Kind) (pos : Nat) (ovf diag : Bool) (s : State) :
    ∃ e, (e.buf = s.buf ∨ e.buf = []) ∧ HasEffect (fun u => .next (u.serveMatch k pos ovf diag)) s e := by
  let frame := extract s.cfg.matchGrid s.buf pos k.length
  rcases serveMatch_cases s k pos ovf diag with ⟨hpart, -⟩ | ⟨hfull, haction, -⟩ | ⟨hfull, haction, -⟩
  · refine ⟨.wait s.buf k pos ovf diag, .inl rfl, fun u h => ?_⟩
    have hserve : u.serveMatch k pos ovf diag = u.awaitFrame k pos ovf diag := by
      simpa [h.cfg, h.buf, hpart] using serveMatch_cases u k pos ovf diag
    simp only [hserve, awaitFrame_eq_finish, h.buf]
  · refine ⟨.ignore k pos ovf diag frame, .inr rfl, fun u h => ?_⟩
    have hserve : u.serveMatch k pos ovf diag = u.ignoreFrame k pos ovf diag frame := by
      simpa [h.cfg, h.buf, hfull, haction] using serveMatch_cases u k pos ovf diag
    simp only [hserve, ignoreFrame_eq_finish]
  · refine ⟨.check (crcCheck s.cfg.crcTable frame k.length) k pos ovf diag frame, .inr rfl, fun u h => ?_⟩
    have hserve : u.serveMatch k pos ovf diag = u.checkFrame k pos ovf diag frame := by
      simpa [h.cfg, h.buf, hfull, haction] using serveMatch_cases u k pos ovf diag
    simp only [hserve, checkFrame_eq_finish, h.cfg]

/-- A signature row run on its own. -/
theorem serveMatch_effect_bufferAfter (k : Kind) (pos : Nat) (ovf diag : Bool) (s : State) :
    ∃ e, BufferAfter s.cfg.bufCap s.buf e.buf ∧
      HasEffect (fun u => .next (u.serveMatch k pos ovf diag)) s e := by
  obtain ⟨e, hbuf, he⟩ := serveMatch_effect k pos ovf diag s
  exact ⟨e, .of_kept_or_cleared hbuf, he⟩

/-! ### The receive sequence -/

/-- After the append, the buffer is trimmed, and then kept or emptied (R100, R103). -/
theorem trimAndScan_effect (diag : Bool) (s : State) :
    ∃ e, (e.buf = s.trim.buf ∨ e.buf = []) ∧ HasEffect (trimAndScan diag) s e := by
  let ovf := overflows s.cfg.bufCap s.buf
  rcases trimAndScan_cases diag s with ⟨hselect, -⟩ | ⟨k, pos, hselect, -⟩ <;> rw [State.trim_buf] at hselect
  · obtain ⟨e, hbuf, he⟩ := reportNoMatch_effect ovf diag s.trim
    refine ⟨e, .inl hbuf, fun u h => ?_⟩
    have hscan : trimAndScan diag u = .next (u.trim.reportNoMatch ovf diag) := by
      simpa [h.cfg, h.buf, hselect] using trimAndScan_cases diag u
    rw [hscan, ← State.finish_trim]
    exact he u.trim h.trim
  · obtain ⟨e, hbuf, he⟩ := serveMatch_effect k pos ovf diag s.trim
    refine ⟨e, hbuf, fun u h => ?_⟩
    have hscan : trimAndScan diag u = .next (u.trim.serveMatch k pos ovf diag) := by
      simpa [h.cfg, h.buf, hselect] using trimAndScan_cases diag u
    rw [hscan, ← State.finish_trim]
    exact he u.trim h.trim

/-- The state a legal PUSH scans, before its trim: a chunk of diagnostic text is appended only under `DIAG_APPEND`
(R102). -/
def State.received (s : State) (chunk : List Byte) : State :=
  if diagPrefix chunk && !s.cfg.diagAppend then s else s.append chunk

@[simp] theorem State.received_cfg (s : State) (chunk : List Byte) : (s.received chunk).cfg = s.cfg := by
  unfold State.received; split <;> rfl

@[simp] theorem State.finish_received (s : State) (e : Effect) (chunk : List Byte) :
    (s.received chunk).finish e = s.finish e := by
  unfold State.received; split <;> rfl

theorem State.SameView.received {u s : State} (h : u.SameView s) (chunk : List Byte) :
    (u.received chunk).SameView (s.received chunk) := by
  unfold State.received
  rw [h.cfg]
  split
  · exact h
  · exact h.append chunk

theorem execPush_of_long {chunk : List Byte} {s : State} (h : s.cfg.chunkMax < chunk.length) :
    execPush chunk s = .next s.raiseIllegal :=
  if_pos h

theorem execPush_of_admitted {chunk : List Byte} {s : State} (h : chunk.length ≤ s.cfg.chunkMax) :
    execPush chunk s = trimAndScan (diagPrefix chunk) (s.received chunk) := by
  rcases execPush_cases chunk s with ⟨hlong, -⟩ | ⟨-, hplain, hrun⟩ | ⟨-, hdiag, hrun⟩
  · omega
  · simp [hrun, hplain, State.received]
  · cases happend : s.cfg.diagAppend <;> simp [hrun, hdiag, State.received, happend]

theorem execPush_effect (chunk : List Byte) (s : State) :
    ∃ e, BufferAfter s.cfg.bufCap s.buf e.buf ∧ HasEffect (execPush chunk) s e := by
  rcases lt_or_ge s.cfg.chunkMax chunk.length with hlong | hadmitted
  · obtain ⟨e, hbuf, he⟩ := raiseIllegal_effect s
    refine ⟨e, .of_kept_or_cleared (.inl hbuf), fun u h => ?_⟩
    rw [execPush_of_long (by rwa [h.cfg])]
    exact he u h
  · obtain ⟨e, hbuf, he⟩ := trimAndScan_effect (diagPrefix chunk) (s.received chunk)
    refine ⟨e, ?_, fun u h => ?_⟩
    · rcases hbuf with hbuf | hbuf <;> rw [hbuf]
      · rw [State.trim_buf, State.received_cfg]
        exact .trimmed _
      · exact .cleared
    · rw [execPush_of_admitted (by rwa [h.cfg]), he _ (h.received chunk), State.finish_received]

/-- DIAG_PREFIX_HR is the PUSH of its whole chunk (R102). -/
theorem execPush_diagTag_append (rest : List Byte) (s : State) :
    execPush (diagTag ++ rest) s = execDiagPrefixHr rest s := by
  have hdiag : diagPrefix (diagTag ++ rest) = true := by simp [diagPrefix, diagTag]
  have hlength : (diagTag ++ rest).length = rest.length + 3 := by simp [diagTag]
  have hrest : (diagTag ++ rest).drop 3 = rest := rfl
  simp only [execPush, hdiag, hlength, hrest, if_true]
  split
  · next hlong => simp only [execDiagPrefixHr, if_pos hlong]
  · rfl

theorem execDiagPrefixHr_effect (rest : List Byte) (s : State) :
    ∃ e, BufferAfter s.cfg.bufCap s.buf e.buf ∧ HasEffect (execDiagPrefixHr rest) s e := by
  obtain ⟨e, hbuf, he⟩ := execPush_effect (diagTag ++ rest) s
  exact ⟨e, hbuf, fun u h => (execPush_diagTag_append rest u).symm.trans (he u h)⟩

/-! ### Every instruction, every step -/

/-- Every instruction completes, with an effect that the configuration and the buffer alone settle. -/
theorem exec_effect (i : Instr) (s : State) :
    ∃ e, BufferAfter s.cfg.bufCap s.buf e.buf ∧ HasEffect (exec i) s e := by
  cases i with
  | reset => exact clear_acknowledge_effect s
  | push chunk => exact execPush_effect chunk s
  | flush => exact clear_acknowledge_effect s
  | crcq len payload => exact execCrcq_effect len payload s
  | tagIgnoredHeater pos ovf diag => exact serveMatch_effect_bufferAfter .ignoredHeater pos ovf diag s
  | tagChStatus pos ovf diag => exact serveMatch_effect_bufferAfter .chStatus pos ovf diag s
  | tagHcStatus pos ovf diag => exact serveMatch_effect_bufferAfter .hcStatus pos ovf diag s
  | tagDhwStatus pos ovf diag => exact serveMatch_effect_bufferAfter .dhwStatus pos ovf diag s
  | tagDatetime pos ovf diag => exact serveMatch_effect_bufferAfter .datetime pos ovf diag s
  | diagPrefixHr rest => exact execDiagPrefixHr_effect rest s

/-- What a step can do to the configuration and the buffer. -/
theorem step_cfg_and_bufferAfter {s t : State} (h : step s = .next t) :
    t.cfg = s.cfg ∧ BufferAfter s.cfg.bufCap s.buf t.buf := by
  rcases step_cases s with ⟨-, hwait⟩ | ⟨why, rest, -, hillegal⟩ | ⟨i, rest, -, hrun⟩
  · cases hwait.symm.trans h
    exact ⟨rfl, .kept⟩
  · cases hillegal.symm.trans h
    exact ⟨rfl, .kept⟩
  · obtain ⟨e, hbuf, he⟩ := exec_effect i (s.withCmdIn rest)
    cases (hrun.trans (he _ (.refl _))).symm.trans h
    exact ⟨rfl, hbuf⟩

theorem trimmed_length_le (cap : Nat) (bytes : List Byte) : (trimmed (some cap) bytes).length ≤ cap := by
  simp only [trimmed, List.length_drop]
  omega

/-- An instruction never takes a buffer over the capacity (R20, R47). -/
theorem BufferAfter.length_le {cap : Nat} {before after : List Byte}
    (h : BufferAfter (some cap) before after) (hbefore : before.length ≤ cap) : after.length ≤ cap := by
  cases h with
  | kept => exact hbefore
  | cleared => exact Nat.zero_le cap
  | trimmed received => exact trimmed_length_le cap received

/-! ### The statements -/

/-- Settles O17: the effect of an instruction is found from the configuration and the buffer of `s`, and is the effect
from every state with the same two. -/
theorem outputsAreNeverRead : Obligations.OutputsAreNeverRead := by
  intro i s u hcfg hbuf
  obtain ⟨e, -, he⟩ := exec_effect i s
  have hs : exec i s = .next (s.finish e) := he s (.refl s)
  have hu : exec i u = .next (u.finish e) := he u ⟨hcfg.symm, hbuf.symm⟩
  exact ⟨s.finish e, u.finish e, e.response, e.driven, hs, hu, rfl,
    s.finish_responses e, u.finish_responses e, s.finish_decoderOut e, u.finish_decoderOut e⟩

/-- Settles O56, from what a step can leave in the buffer: the same bytes, none, or trimmed ones. -/
theorem stepKeepsBufferWithinCap : Obligations.StepKeepsBufferWithinCap := by
  intro s t hwithin hstep cap hcap
  obtain ⟨hcfg, hafter⟩ := step_cfg_and_bufferAfter hstep
  rw [hcfg] at hcap
  rw [hcap] at hafter
  exact hafter.length_le (hwithin cap hcap)

/-- Settles O57: the waiting step, the ILLEGAL answer and every instruction's effect keep the configuration. -/
theorem stepKeepsConfiguration : Obligations.StepKeepsConfiguration := by
  intro s t hstep
  obtain ⟨hcfg, -⟩ := step_cfg_and_bufferAfter hstep
  exact hcfg

end Sys2Proof.Machine
end

section
/-! The tag search, completeness and extraction under the two changes a buffer sees in a PUSH: bytes appended behind it,
and bytes dropped from its front (spec/20_memory.md R45, R47; spec/40_demux.md R104 to R106). -/

namespace Sys2Proof

theorem Kind.tag_length (k : Kind) : k.tag.length = 4 := by cases k <;> rfl

theorem Kind.length_bounds (k : Kind) : 4 ≤ k.length ∧ k.length ≤ 31 := by cases k <;> decide

end Sys2Proof

namespace Sys2Proof.Machine

/-! ### The lowest occurrence in a sequence -/

section
variable {α : Type} [DecidableEq α]

theorem findFirst_cons_eq_some {pat xs : List α} {x : α} {p : Nat} :
    findFirst pat (x :: xs) = some p ↔
      ((x :: xs).take pat.length = pat ∧ p = 0) ∨
      ((x :: xs).take pat.length ≠ pat ∧ ∃ q, findFirst pat xs = some q ∧ p = q + 1) := by
  by_cases hhead : (x :: xs).take pat.length = pat
  · simp [findFirst, hhead, eq_comm]
  · simp [findFirst, hhead, eq_comm]

theorem findFirst_cons_eq_none {pat xs : List α} {x : α} :
    findFirst pat (x :: xs) = none ↔ (x :: xs).take pat.length ≠ pat ∧ findFirst pat xs = none := by
  by_cases hhead : (x :: xs).take pat.length = pat <;> simp [findFirst, hhead]

theorem findFirst_nil_eq_some {pat : List α} {p : Nat} : findFirst pat [] = some p ↔ pat = [] ∧ p = 0 := by
  by_cases hpat : pat = [] <;> simp [findFirst, hpat, eq_comm]

/-- The pattern stands at the position the search answers, all of it inside the sequence. -/
theorem findFirst_spec {pat l : List α} {p : Nat} (h : findFirst pat l = some p) :
    (l.drop p).take pat.length = pat ∧ p + pat.length ≤ l.length := by
  induction l generalizing p with
  | nil =>
    obtain ⟨rfl, rfl⟩ := findFirst_nil_eq_some.1 h
    simp
  | cons x xs ih =>
    rcases findFirst_cons_eq_some.1 h with ⟨hhead, rfl⟩ | ⟨-, q, hq, rfl⟩
    · have hlength := congrArg List.length hhead
      simp only [List.length_take] at hlength
      exact ⟨hhead, by omega⟩
    · obtain ⟨hstands, hinside⟩ := ih hq
      exact ⟨hstands, by simp only [List.length_cons]; omega⟩

/-- An append does not move the lowest occurrence. -/
theorem findFirst_append {pat l : List α} {p : Nat} (h : findFirst pat l = some p) (tail : List α) :
    findFirst pat (l ++ tail) = some p := by
  induction l generalizing p with
  | nil =>
    obtain ⟨rfl, rfl⟩ := findFirst_nil_eq_some.1 h
    cases tail <;> simp [findFirst]
  | cons x xs ih =>
    have hfits : pat.length ≤ (x :: xs).length := by
      have := (findFirst_spec h).2
      omega
    rw [List.cons_append, findFirst_cons_eq_some, ← List.cons_append, List.take_append_of_le_length hfits]
    rcases findFirst_cons_eq_some.1 h with hhead | ⟨hhead, q, hq, hp⟩
    · exact .inl hhead
    · exact .inr ⟨hhead, q, ih hq, hp⟩

/-- An occurrence that an append makes appear ends in the appended part. -/
theorem findFirst_of_append {pat l tail : List α} {p : Nat} (hbefore : findFirst pat l = none)
    (hafter : findFirst pat (l ++ tail) = some p) : l.length < p + pat.length := by
  induction l generalizing p with
  | nil =>
    have hpat : pat ≠ [] := by
      rintro rfl
      simp [findFirst] at hbefore
    have := List.length_pos_of_ne_nil hpat
    simp only [List.length_nil]
    omega
  | cons x xs ih =>
    obtain ⟨hhead, htail⟩ := findFirst_cons_eq_none.1 hbefore
    rcases findFirst_cons_eq_some.1 hafter with ⟨hnew, rfl⟩ | ⟨-, q, hq, rfl⟩
    · by_contra hshort
      exact hhead (by rwa [← List.take_append_of_le_length (by omega)])
    · have := ih htail hq
      simp only [List.length_cons]
      omega

/-- Elements dropped before the lowest occurrence shift it. -/
theorem findFirst_drop {pat l : List α} {d p : Nat} (h : findFirst pat l = some (d + p)) :
    findFirst pat (l.drop d) = some p := by
  induction d generalizing l with
  | zero => simpa using h
  | succ d ih =>
    cases l with
    | nil =>
      obtain ⟨-, hp⟩ := findFirst_nil_eq_some.1 h
      omega
    | cons x xs =>
      rcases findFirst_cons_eq_some.1 h with ⟨-, hp⟩ | ⟨-, q, hq, hp⟩
      · omega
      · exact ih (by rw [hq]; congr 1; omega)

theorem findFirst_drop_eq_none {pat l : List α} (h : findFirst pat l = none) (d : Nat) :
    findFirst pat (l.drop d) = none := by
  induction d generalizing l with
  | zero => exact h
  | succ d ih =>
    cases l with
    | nil => exact h
    | cons x xs => exact ih (findFirst_cons_eq_none.1 h).2

end

/-! ### The two grids as one -/

/-- How many match positions a byte takes (R43, R104): positions are byte indices or nibble indices. -/
def positionsPerByte : MatchGrid → Nat
  | .byte => 1
  | .nibble => 2

theorem nibbles_drop (bytes : List Byte) (d : Nat) : nibbles (bytes.drop d) = (nibbles bytes).drop (2 * d) := by
  induction d generalizing bytes with
  | zero => rfl
  | succ d ih =>
    cases bytes with
    | nil => simp
    | cons b bs => simpa [Nat.mul_add] using ih bs

theorem nibbles_take (bytes : List Byte) (n : Nat) : nibbles (bytes.take n) = (nibbles bytes).take (2 * n) := by
  induction n generalizing bytes with
  | zero => rfl
  | succ n ih =>
    cases bytes with
    | nil => simp
    | cons b bs => simpa [Nat.mul_add] using ih bs

theorem nibbles_injective : Function.Injective nibbles :=
  Function.LeftInverse.injective bytesOfNibbles_nibbles

theorem complete_iff {grid : MatchGrid} {bytes : List Byte} {pos len : Nat} :
    complete grid bytes pos len = true ↔
      pos + positionsPerByte grid * len ≤ positionsPerByte grid * bytes.length := by
  cases grid <;> simp [complete, positionsPerByte]

theorem complete_drop (grid : MatchGrid) {bytes : List Byte} {d : Nat} (hd : d ≤ bytes.length) (pos len : Nat) :
    complete grid (bytes.drop d) pos len = complete grid bytes (positionsPerByte grid * d + pos) len := by
  rw [Bool.eq_iff_iff, complete_iff, complete_iff, List.length_drop, Nat.mul_sub]
  have := Nat.mul_le_mul_left (positionsPerByte grid) hd
  omega

theorem extract_drop (grid : MatchGrid) (bytes : List Byte) (d pos len : Nat) :
    extract grid (bytes.drop d) pos len = extract grid bytes (positionsPerByte grid * d + pos) len := by
  cases grid with
  | byte => simp [extract, positionsPerByte, List.drop_drop]
  | nibble => simp [extract, positionsPerByte, nibbles_drop, List.drop_drop]

theorem find_append {grid : MatchGrid} {bytes tag : List Byte} {p : Nat} (h : find grid bytes tag = some p)
    (chunk : List Byte) : find grid (bytes ++ chunk) tag = some p := by
  cases grid with
  | byte => exact findFirst_append h chunk
  | nibble =>
    simp only [find, nibbles_append]
    exact findFirst_append h (nibbles chunk)

/-- A tag that an append makes occur ends in the appended bytes (R111). -/
theorem find_of_append {grid : MatchGrid} {bytes chunk tag : List Byte} {p : Nat}
    (hbefore : find grid bytes tag = none) (hafter : find grid (bytes ++ chunk) tag = some p) :
    positionsPerByte grid * bytes.length < p + positionsPerByte grid * tag.length := by
  cases grid with
  | byte => simpa [positionsPerByte] using findFirst_of_append hbefore hafter
  | nibble =>
    simp only [find, nibbles_append] at hafter
    simpa [positionsPerByte] using findFirst_of_append hbefore hafter

theorem find_drop {grid : MatchGrid} {bytes tag : List Byte} {d p : Nat}
    (h : find grid bytes tag = some (positionsPerByte grid * d + p)) :
    find grid (bytes.drop d) tag = some p := by
  cases grid with
  | byte => exact findFirst_drop (by simpa [find, positionsPerByte] using h)
  | nibble =>
    simp only [find, nibbles_drop]
    exact findFirst_drop h

theorem find_drop_eq_none {grid : MatchGrid} {bytes tag : List Byte} (h : find grid bytes tag = none) (d : Nat) :
    find grid (bytes.drop d) tag = none := by
  cases grid with
  | byte => exact findFirst_drop_eq_none h d
  | nibble =>
    simp only [find, nibbles_drop]
    exact findFirst_drop_eq_none h (2 * d)

/-! ### The selected kind -/

/-- The selected kind stands at its lowest position (R106). -/
theorem find_of_selectKind {grid : MatchGrid} {bytes : List Byte} {k : Kind} {pos : Nat}
    (h : selectKind grid bytes = some (k, pos)) : find grid bytes k.tag = some pos := by
  rcases selectAmong_cases grid bytes Kind.priority with ⟨hnone, -⟩ | ⟨_, k', _, pos', -, hselect, hfind, -⟩
  · cases hnone.symm.trans h
  · cases hselect.symm.trans h
    exact hfind

/-- After an append the scan selects what it selected before, or a kind whose tag did not occur before (R105). -/
theorem selectAmong_append {grid : MatchGrid} {bytes chunk : List Byte} {kinds : List Kind} {k : Kind} {pos : Nat}
    (h : selectAmong grid (bytes ++ chunk) kinds = some (k, pos)) :
    selectAmong grid bytes kinds = some (k, pos) ∨
      (find grid bytes k.tag = none ∧ find grid (bytes ++ chunk) k.tag = some pos) := by
  induction kinds with
  | nil => cases h
  | cons k' ks ih =>
    cases hbefore : find grid bytes k'.tag with
    | some p =>
      have hafter := find_append hbefore chunk
      exact .inl (by simpa [selectAmong, hbefore, hafter] using h)
    | none =>
      cases hafter : find grid (bytes ++ chunk) k'.tag with
      | some p =>
        obtain ⟨rfl, rfl⟩ : k' = k ∧ p = pos := by simpa [selectAmong, hafter] using h
        exact .inr ⟨hbefore, hafter⟩
      | none =>
        have hrest : selectAmong grid (bytes ++ chunk) ks = some (k, pos) := by
          simpa [selectAmong, hafter] using h
        simpa [selectAmong, hbefore] using ih hrest

/-- Bytes dropped before the selected tag change nothing but its position. -/
theorem selectAmong_drop {grid : MatchGrid} {bytes : List Byte} {kinds : List Kind} {k : Kind} {d pos : Nat}
    (h : selectAmong grid bytes kinds = some (k, positionsPerByte grid * d + pos)) :
    selectAmong grid (bytes.drop d) kinds = some (k, pos) := by
  induction kinds with
  | nil => cases h
  | cons k' ks ih =>
    cases hfind : find grid bytes k'.tag with
    | some p =>
      obtain ⟨rfl, rfl⟩ : k' = k ∧ p = positionsPerByte grid * d + pos := by
        simpa [selectAmong, hfind] using h
      simp [selectAmong, find_drop hfind]
    | none =>
      have hrest : selectAmong grid bytes ks = some (k, positionsPerByte grid * d + pos) := by
        simpa [selectAmong, hfind] using h
      simpa [selectAmong, find_drop_eq_none hfind d] using ih hrest

theorem selectAmong_drop_eq_none {grid : MatchGrid} {bytes : List Byte} {kinds : List Kind}
    (h : selectAmong grid bytes kinds = none) (d : Nat) : selectAmong grid (bytes.drop d) kinds = none := by
  induction kinds with
  | nil => rfl
  | cons k ks ih =>
    cases hfind : find grid bytes k.tag with
    | some p => simp [selectAmong, hfind] at h
    | none =>
      have hrest : selectAmong grid bytes ks = none := by simpa [selectAmong, hfind] using h
      simpa [selectAmong, find_drop_eq_none hfind d] using ih hrest

/-! ### The extracted frame -/

/-- The nibbles of a frame extracted on the nibble grid are those that stand in the buffer (R104). -/
theorem nibbles_extract {bytes : List Byte} {pos len : Nat} (h : complete .nibble bytes pos len = true) :
    nibbles (extract .nibble bytes pos len) = ((nibbles bytes).drop pos).take (2 * len) := by
  have hinside : pos + 2 * len ≤ 2 * bytes.length := complete_iff.1 h
  exact nibbles_bytesOfNibbles len _ (by simp only [List.length_take, List.length_drop, nibbles_length]; omega)

/-- The frame extracted where a tag stands begins with that tag (R45). -/
theorem extract_take_of_find {grid : MatchGrid} {bytes tag : List Byte} {pos len : Nat}
    (hfind : find grid bytes tag = some pos) (hcomplete : complete grid bytes pos len = true)
    (htag : tag.length ≤ len) : (extract grid bytes pos len).take tag.length = tag := by
  cases grid with
  | byte =>
    rw [extract, List.take_take, Nat.min_eq_left htag]
    exact (findFirst_spec hfind).1
  | nibble =>
    have hstands := (findFirst_spec hfind).1
    rw [nibbles_length] at hstands
    apply nibbles_injective
    rw [nibbles_take, nibbles_extract hcomplete, List.take_take, Nat.min_eq_left (by omega), hstands]

/-- What a FULL answer of the scan says (R104, R105). -/
theorem scan_eq_full {grid : MatchGrid} {bytes : List Byte} {k : Kind} {pos : Nat} {frame : List Byte}
    (h : scan grid bytes = .full k pos frame) :
    selectKind grid bytes = some (k, pos) ∧ complete grid bytes pos k.length = true ∧
      frame = extract grid bytes pos k.length := by
  cases hselect : selectKind grid bytes with
  | none => simp [scan, hselect] at h
  | some selected =>
    obtain ⟨k', pos'⟩ := selected
    simp only [scan, hselect] at h
    rcases resolveMatch_cases grid bytes k' pos' with ⟨-, hwait⟩ | ⟨hcomplete, hfull⟩
    · cases hwait.symm.trans h
    · cases hfull.symm.trans h
      exact ⟨rfl, hcomplete, rfl⟩

/-- Settles O39: the selected tag stands at the match position and the frame is complete from there on. -/
theorem extractedFrameIsWhole : Obligations.ExtractedFrameIsWhole := by
  intro grid bytes k pos frame hscan
  obtain ⟨hselect, hcomplete, rfl⟩ := scan_eq_full hscan
  have htag : (extract grid bytes pos k.length).take 4 = k.tag := by
    rw [← k.tag_length]
    exact extract_take_of_find (find_of_selectKind hselect) hcomplete (k.tag_length ▸ k.length_bounds.1)
  refine ⟨extract_length hcomplete, htag, ?_, ?_⟩ <;> rintro rfl
  · exact ⟨by simpa [positionsPerByte] using complete_iff.1 hcomplete, rfl⟩
  · exact ⟨complete_iff.1 hcomplete, nibbles_extract hcomplete⟩

end Sys2Proof.Machine
end

section
/-! Commands at the command port (spec/20_memory.md R49, spec/30_encoding.md R61 to R63, R75): a command is read back
whole from its encoding, and a sequence of commands runs one command a step. -/

namespace Sys2Proof

/-! ### Words and their fields -/

/-- The bytes of a word in link order make the word again (R61). -/
theorem wordOfBytes_bytesOfWord (w : Word) :
    wordOfBytes (w.extractLsb' 24 8) (w.extractLsb' 16 8) (w.extractLsb' 8 8) (w.extractLsb' 0 8) = w := by
  have hupper : w.extractLsb' 24 8 ++ w.extractLsb' 16 8 = w.extractLsb' 16 (8 + 8) :=
    BitVec.extractLsb'_append_extractLsb'_eq_extractLsb' rfl
  have hmiddle : w.extractLsb' 16 (8 + 8) ++ w.extractLsb' 8 8 = w.extractLsb' 8 (8 + 8 + 8) :=
    BitVec.extractLsb'_append_extractLsb'_eq_extractLsb' rfl
  have hlower : w.extractLsb' 8 (8 + 8 + 8) ++ w.extractLsb' 0 8 = w.extractLsb' 0 (8 + 8 + 8 + 8) :=
    BitVec.extractLsb'_append_extractLsb'_eq_extractLsb' rfl
  rw [wordOfBytes, hupper, hmiddle, hlower]
  exact BitVec.extractLsb'_eq_self

section
variable (op : BitVec 4) (arg : BitVec 12) (n : BitVec 16)

@[simp] theorem opField_commandWord : opField (commandWord op arg n) = op :=
  (BitVec.extractLsb'_append_eq_of_le (xhi := op ++ arg) (xlo := n) (by decide)).trans
    BitVec.extractLsb'_append_eq_left

@[simp] theorem argField_commandWord : argField (commandWord op arg n) = arg :=
  (BitVec.extractLsb'_append_eq_of_le (xhi := op ++ arg) (xlo := n) (by decide)).trans
    BitVec.extractLsb'_append_eq_right

@[simp] theorem countField_commandWord : countField (commandWord op arg n) = n :=
  BitVec.extractLsb'_append_eq_right (a := op ++ arg)

end

/-! ### One command read -/

/-- A word with its N data bytes is taken whole (R75). -/
theorem decode_command_word {w : Word} {data : List Byte} (h : data.length = (countField w).toNat)
    (rest : List Byte) : decode .command (bytesOfWord w ++ data ++ rest) = decodeWord w data rest := by
  simp [decode, decodeCommand, bytesOfWord, wordOfBytes_bytesOfWord, ← h]

/-- A command is read back from its encoding, and exactly its bytes are taken (R61 to R63, R75). -/
theorem decode_command_encode {i : Instr} (hcommand : i.isCommand = true) (hwf : i.wf = true) (rest : List Byte) :
    decode .command (encode i ++ rest) = .instr i rest := by
  cases i with
  | reset => exact decode_command_word (w := commandWord 1 0 0) (data := []) (by simp) rest
  | flush => exact decode_command_word (w := commandWord 3 0 0) (data := []) (by simp) rest
  | push chunk =>
    have hlength : chunk.length ≤ 65535 := by simpa [Instr.wf] using hwf
    rw [encode, decode_command_word (by simp; omega)]
    simp [decodeWord]
  | crcq len payload =>
    obtain ⟨hlen, hlength⟩ : len ≤ 4095 ∧ payload.length ≤ 65535 := by simpa [Instr.wf] using hwf
    rw [encode, decode_command_word (by simp; omega)]
    simp [decodeWord, Nat.mod_eq_of_lt (show len < 4096 by omega)]
  | _ => simp [Instr.isCommand] at hcommand

/-- A command word is read as one of the four commands (R60, R62). -/
theorem isCommand_of_decodeWord {w : Word} {data rest rest' : List Byte} {i : Instr}
    (h : decodeWord w data rest = .instr i rest') : i.isCommand = true := by
  simp only [decodeWord] at h
  split at h
  · split_ifs at h; cases h; rfl
  · split_ifs at h; cases h; rfl
  · split_ifs at h; cases h; rfl
  · cases h; rfl
  · cases h

/-- The command decoder answers commands only (R60). -/
theorem isCommand_of_decode {bytes rest : List Byte} {i : Instr} (h : decode .command bytes = .instr i rest) :
    i.isCommand = true := by
  match bytes, h with
  | b3 :: b2 :: b1 :: b0 :: tail, h =>
    simp only [decode, decodeCommand] at h
    split at h
    · cases h
    · exact isCommand_of_decodeWord h
  | [], h | [_], h | [_, _], h | [_, _, _], h => cases h

end Sys2Proof

namespace Sys2Proof.Machine

/-! ### A sequence of commands -/

/-- The run of a machine whose next step answers. -/
theorem run_succ_of_step {s t : State} (h : step s = .next t) (n : Nat) :
    Host.Core.run Sys2Proof.core (n + 1) s = Host.Core.run Sys2Proof.core n t := by
  have hcore : Sys2Proof.core.step s = .next t := h
  simp only [Host.Core.run, hcore]

theorem execAll_cons_of_exec {i : Instr} {is : List Instr} {s t : State} (h : exec i s = .next t) :
    execAll (i :: is) s = execAll is t := by
  simp only [execAll, h]

/-- Settles O16, by induction on the commands: a step takes the first one, whose effect does not depend on the bytes
behind it at the port. -/
theorem commandStreamRunsInOrder : Obligations.CommandStreamRunsInOrder := by
  intro cmds s rest hcmds
  induction cmds generalizing s with
  | nil => rfl
  | cons i is ih =>
    obtain ⟨hi, his⟩ := List.forall_mem_cons.1 hcmds
    obtain ⟨e, -, he⟩ := exec_effect i s
    have hexec (port : List Byte) : exec i (s.withCmdIn port) = .next ((s.finish e).withCmdIn port) :=
      he (s.withCmdIn port) ⟨rfl, rfl⟩
    have hstream : commandStream (i :: is) ++ rest = encode i ++ (commandStream is ++ rest) :=
      List.append_assoc _ _ _
    have hstep : step (s.withCmdIn (commandStream (i :: is) ++ rest)) =
        .next ((s.finish e).withCmdIn (commandStream is ++ rest)) := by
      rw [step_of_decode_instr (by rw [State.withCmdIn_cmdIn, hstream, decode_command_encode hi.1 hi.2])]
      exact hexec _
    have hall : execAll (i :: is) (s.withCmdIn rest) = execAll is ((s.finish e).withCmdIn rest) :=
      execAll_cons_of_exec (hexec rest)
    exact (run_succ_of_step hstep is.length).trans ((ih (s.finish e) his).trans hall.symm)

end Sys2Proof.Machine
end

section
/-! The bounded buffer beside the unbounded one (spec/20_memory.md R47, spec/70_reset_and_hazards.md R204). The trim
drops bytes from the front only, and what a scan selects stands in the newest `CHUNK_MAX + 31` bytes, since the buffer
before the PUSH was settled (R23). -/

namespace Sys2Proof.Machine

/-! ### The trim -/

theorem trimmed_some (cap : Nat) (bytes : List Byte) :
    trimmed (some cap) bytes = bytes.drop (bytes.length - cap) := rfl

@[simp] theorem trimmed_nil (cap : Option Nat) : trimmed cap [] = [] := by
  cases cap <;> simp [trimmed]

theorem trimmed_trimmed_append (cap : Nat) (bytes chunk : List Byte) :
    trimmed (some cap) (trimmed (some cap) bytes ++ chunk) = trimmed (some cap) (bytes ++ chunk) := by
  simp only [trimmed_some]
  rw [← List.drop_append_of_le_length (by omega), List.drop_drop]
  congr 1
  simp only [List.length_drop, List.length_append]
  omega

/-- Settles O43: the trim drops the bytes in excess of the capacity from the front. -/
theorem trimKeepsNewest : Obligations.TrimKeepsNewest := by
  refine ⟨fun _ => ⟨rfl, rfl⟩, fun cap bytes => ⟨fun hover => ⟨by simpa [overflows] using hover, ?_⟩,
    fun hfits => ⟨by simpa [overflows] using hfits, ?_⟩⟩⟩
  · refine ⟨bytes.take (bytes.length - cap), (List.take_append_drop _ bytes).symm, ?_⟩
    rw [trimmed_some, List.length_drop]
    omega
  · rw [trimmed_some, Nat.sub_eq_zero_of_le hfits, List.drop_zero]

/-! ### Settled buffers -/

/-- A buffer is settled exactly when the frame its scan selects, if any, is incomplete (R23). -/
theorem settledBuf_iff {grid : MatchGrid} {bytes : List Byte} :
    settledBuf grid bytes ↔
      ∀ k pos, selectKind grid bytes = some (k, pos) → complete grid bytes pos k.length = false := by
  cases hselect : selectKind grid bytes with
  | none => simp [settledBuf, scan, hselect]
  | some selected =>
    obtain ⟨k, pos⟩ := selected
    rcases resolveMatch_cases grid bytes k pos with ⟨hcomplete, hwait⟩ | ⟨hcomplete, hfull⟩
    · simp [settledBuf, scan, hselect, hwait, hcomplete]
    · have hnonempty : bytes ≠ [] := by
        rintro rfl
        have hinside := complete_iff.1 hcomplete
        have := k.length_bounds
        cases grid <;> simp [positionsPerByte] at hinside <;> omega
      simp [settledBuf, scan, hselect, hfull, hcomplete, hnonempty]

/-- Serving the kind the scan selected leaves a settled buffer: kept while the frame is incomplete, emptied once it
is complete (R107, R108). -/
theorem serveMatch_settled {s : State} {k : Kind} {pos : Nat}
    (hselect : selectKind s.cfg.matchGrid s.buf = some (k, pos)) (ovf diag : Bool) :
    (s.serveMatch k pos ovf diag).Settled := by
  rcases serveMatch_cases s k pos ovf diag with ⟨hpart, hserve⟩ | ⟨-, -, hserve⟩ | ⟨-, -, hserve⟩ <;> rw [hserve]
  · rw [awaitFrame_eq_finish]
    refine settledBuf_iff.2 fun k' pos' hselect' => ?_
    cases hselect.symm.trans hselect'
    exact hpart
  · exact .inl rfl
  · rw [checkFrame_eq_finish]
    exact .inl rfl

/-- The receive sequence leaves a settled buffer, whatever it received (R23). -/
theorem trimAndScan_settled {diag : Bool} {s t : State} (h : trimAndScan diag s = .next t) : t.Settled := by
  rcases trimAndScan_cases diag s with ⟨hselect, hrun⟩ | ⟨k, pos, hselect, hrun⟩ <;> cases hrun.symm.trans h
  · refine settledBuf_iff.2 fun k pos hselect' => ?_
    cases hselect.symm.trans hselect'
  · exact serveMatch_settled hselect _ diag

/-- R204's argument: after an append to a settled buffer the scan selects a tag within the last `|chunk| + 31` bytes,
for it is the tag the buffer waits on or one that ends in the chunk. -/
theorem selected_is_recent {grid : MatchGrid} {bytes chunk : List Byte} {k : Kind} {pos : Nat}
    (hsettled : settledBuf grid bytes) (hselect : selectKind grid (bytes ++ chunk) = some (k, pos)) :
    positionsPerByte grid * (bytes.length - 31) ≤ pos := by
  rw [Nat.mul_sub]
  rcases selectAmong_append hselect with hpending | ⟨hbefore, hafter⟩
  · have hpart := settledBuf_iff.1 hsettled k pos hpending
    have hinside := mt complete_iff.2 (Bool.eq_false_iff.1 hpart)
    have := Nat.mul_le_mul_left (positionsPerByte grid) k.length_bounds.2
    omega
  · have hends := find_of_append hbefore hafter
    rw [k.tag_length] at hends
    omega

/-! ### Twin effects -/

/-- Effects that twin states can have: the bounded buffer is the trimmed one, and the outputs agree but for OVF,
BUF_LEN and MATCH_OFF (R204). -/
structure Effect.Twin (cap : Nat) (bounded unbounded : Effect) : Prop where
  buf : bounded.buf = trimmed (some cap) unbounded.buf
  driven : bounded.driven = unbounded.driven
  response : bounded.response.capacityFree = unbounded.response.capacityFree

section
variable {cap : Nat} {b u : State} (h : State.BoundedTwin cap b u)
include h

theorem State.BoundedTwin.unbounded_bufCap : u.cfg.bufCap = none := h.1

theorem State.BoundedTwin.cfg_eq : b.cfg = { u.cfg with bufCap := some cap } :=
  let ⟨_, hcfg, _⟩ := h; hcfg

theorem State.BoundedTwin.cmdIn_eq : b.cmdIn = u.cmdIn :=
  let ⟨_, _, hcmdIn, _⟩ := h; hcmdIn

theorem State.BoundedTwin.buf_eq : b.buf = u.buf.drop (u.buf.length - cap) :=
  let ⟨_, _, _, hbuf, _⟩ := h; hbuf

theorem State.BoundedTwin.matchGrid_eq : b.cfg.matchGrid = u.cfg.matchGrid := by rw [h.cfg_eq]

theorem State.BoundedTwin.crcTable_eq : b.cfg.crcTable = u.cfg.crcTable := by rw [h.cfg_eq]

theorem State.BoundedTwin.chunkMax_eq : b.cfg.chunkMax = u.cfg.chunkMax := by rw [h.cfg_eq]

end

theorem State.BoundedTwin.finish {cap : Nat} {b u : State} {eb eu : Effect} (h : State.BoundedTwin cap b u)
    (he : Effect.Twin cap eb eu) : State.BoundedTwin cap (b.finish eb) (u.finish eu) := by
  obtain ⟨hcap, hcfg, hcmdIn, -, hdecoder, hresponses⟩ := h
  refine ⟨hcap, hcfg, hcmdIn, he.buf, ?_, ?_⟩
  · simp only [State.finish_decoderOut, hdecoder, he.driven]
  · simp only [State.finish_responses, List.map_append, List.map_cons, List.map_nil, hresponses, he.response]

theorem State.BoundedTwin.respond {cap : Nat} {b u : State} {rb ru : Response} (h : State.BoundedTwin cap b u)
    (hr : rb.capacityFree = ru.capacityFree) : State.BoundedTwin cap (b.respond rb) (u.respond ru) := by
  rw [State.respond_eq_finish, State.respond_eq_finish]
  exact h.finish ⟨h.buf_eq, rfl, hr⟩

theorem State.BoundedTwin.clear {cap : Nat} {b u : State} (h : State.BoundedTwin cap b u) :
    State.BoundedTwin cap b.clear u.clear := by
  obtain ⟨hcap, hcfg, hcmdIn, -, hdecoder, hresponses⟩ := h
  exact ⟨hcap, hcfg, hcmdIn, (trimmed_nil _).symm, hdecoder, hresponses⟩

theorem State.BoundedTwin.withCmdIn {cap : Nat} {b u : State} (h : State.BoundedTwin cap b u) (rest : List Byte) :
    State.BoundedTwin cap (b.withCmdIn rest) (u.withCmdIn rest) := by
  obtain ⟨hcap, hcfg, -, hbuf, hdecoder, hresponses⟩ := h
  exact ⟨hcap, hcfg, rfl, hbuf, hdecoder, hresponses⟩

/-- ILLEGAL answers of twins differ in BUF_LEN at most (R171). -/
theorem State.BoundedTwin.raiseIllegal {cap : Nat} {b u : State} (h : State.BoundedTwin cap b u) :
    State.BoundedTwin cap b.raiseIllegal u.raiseIllegal :=
  h.respond rfl

/-- ACK answers of RESET and FLUSH (R150, R151). -/
theorem State.BoundedTwin.clear_acknowledge {cap : Nat} {b u : State} (h : State.BoundedTwin cap b u) :
    State.BoundedTwin cap b.clear.acknowledge u.clear.acknowledge :=
  h.clear.respond rfl

/-! ### The receive sequence of twins -/

theorem trim_of_unbounded {s : State} (h : s.cfg.bufCap = none) : s.trim = s := by
  simp only [State.trim, h, trimmed]

/-- The buffer of a twin after the append and the trim: as if the trimmed bytes were still there (R47). -/
theorem State.BoundedTwin.received {cap : Nat} {b u : State} (h : State.BoundedTwin cap b u) (chunk : List Byte) :
    State.BoundedTwin cap (b.received chunk).trim (u.received chunk).trim := by
  obtain ⟨hcap, hcfg, hcmdIn, hbuf, hdecoder, hresponses⟩ := h
  rw [trim_of_unbounded (s := u.received chunk) (by rwa [State.received_cfg])]
  have hdiag : b.cfg.diagAppend = u.cfg.diagAppend := by rw [hcfg]
  have hbcap : b.cfg.bufCap = some cap := by rw [hcfg]
  unfold State.received
  rw [hdiag]
  split
  · refine ⟨hcap, hcfg, hcmdIn, ?_, hdecoder, hresponses⟩
    rw [State.trim_buf, hbcap, hbuf]
    simpa using trimmed_trimmed_append cap u.buf []
  · refine ⟨hcap, hcfg, hcmdIn, ?_, hdecoder, hresponses⟩
    rw [State.trim_buf, State.append_cfg, hbcap, State.append_buf, hbuf, State.append_buf]
    exact trimmed_trimmed_append cap u.buf chunk

section
variable {s : State} {k : Kind} {pos : Nat}

theorem serveMatch_of_partial (h : complete s.cfg.matchGrid s.buf pos k.length = false) (ovf diag : Bool) :
    s.serveMatch k pos ovf diag = s.awaitFrame k pos ovf diag := by
  simpa [h] using serveMatch_cases s k pos ovf diag

theorem serveMatch_of_ignored (h : complete s.cfg.matchGrid s.buf pos k.length = true) (haction : k.action = .ignore)
    (ovf diag : Bool) : s.serveMatch k pos ovf diag =
      s.ignoreFrame k pos ovf diag (extract s.cfg.matchGrid s.buf pos k.length) := by
  simpa [h, haction] using serveMatch_cases s k pos ovf diag

theorem serveMatch_of_decoded (h : complete s.cfg.matchGrid s.buf pos k.length = true) (haction : k.action = .decode)
    (ovf diag : Bool) : s.serveMatch k pos ovf diag =
      s.checkFrame k pos ovf diag (extract s.cfg.matchGrid s.buf pos k.length) := by
  simpa [h, haction] using serveMatch_cases s k pos ovf diag

end

/-- A kind served at the same tag of both buffers: the frame is complete in both or in neither, and is the same. -/
theorem State.BoundedTwin.serveMatch {cap : Nat} {b u : State} (h : State.BoundedTwin cap b u) (k : Kind) (pos : Nat)
    (ovf ovf' diag : Bool) :
    State.BoundedTwin cap (b.serveMatch k pos ovf diag)
      (u.serveMatch k (positionsPerByte u.cfg.matchGrid * (u.buf.length - cap) + pos) ovf' diag) := by
  have hcomplete := complete_drop u.cfg.matchGrid (Nat.sub_le u.buf.length cap) pos k.length
  have hextract := extract_drop u.cfg.matchGrid u.buf (u.buf.length - cap) pos k.length
  rw [← h.buf_eq] at hcomplete hextract
  rcases serveMatch_cases u k (positionsPerByte u.cfg.matchGrid * (u.buf.length - cap) + pos) ovf' diag with
    ⟨hpart, hu⟩ | ⟨hfull, haction, hu⟩ | ⟨hfull, haction, hu⟩
  · rw [hu, serveMatch_of_partial (by rw [h.matchGrid_eq, hcomplete, hpart])]
    exact h.respond rfl
  · rw [hu, serveMatch_of_ignored (by rw [h.matchGrid_eq, hcomplete, hfull]) haction, h.matchGrid_eq, hextract]
    exact h.clear.respond rfl
  · rw [hu, serveMatch_of_decoded (by rw [h.matchGrid_eq, hcomplete, hfull]) haction, h.matchGrid_eq, hextract,
      checkFrame_eq_finish, checkFrame_eq_finish, h.crcTable_eq]
    exact h.finish ⟨(trimmed_nil _).symm, rfl, rfl⟩

theorem trimAndScan_of_noMatch {s : State} (h : selectKind s.cfg.matchGrid s.trim.buf = none) (diag : Bool) :
    trimAndScan diag s = .next (s.trim.reportNoMatch (overflows s.cfg.bufCap s.buf) diag) := by
  simp only [trimAndScan, State.trim_cfg, h]

theorem trimAndScan_of_match {s : State} {k : Kind} {pos : Nat}
    (h : selectKind s.cfg.matchGrid s.trim.buf = some (k, pos)) (diag : Bool) :
    trimAndScan diag s = .next (s.trim.serveMatch k pos (overflows s.cfg.bufCap s.buf) diag) := by
  simp only [trimAndScan, State.trim_cfg, h, runSignature_eq]

/-- Twins whose selected tag survives the trim scan alike. -/
theorem trimAndScan_twin {cap : Nat} {b u : State} (h : State.BoundedTwin cap b.trim u.trim) (diag : Bool)
    (hrecent : ∀ k pos, selectKind u.cfg.matchGrid u.trim.buf = some (k, pos) →
      positionsPerByte u.cfg.matchGrid * (u.trim.buf.length - cap) ≤ pos) :
    ∃ b' u', trimAndScan diag b = .next b' ∧ trimAndScan diag u = .next u' ∧ State.BoundedTwin cap b' u' := by
  have hgrid : b.cfg.matchGrid = u.cfg.matchGrid := h.matchGrid_eq
  cases hselect : selectKind u.cfg.matchGrid u.trim.buf with
  | none =>
    have hb : selectKind b.cfg.matchGrid b.trim.buf = none := by
      rw [hgrid, h.buf_eq]
      exact selectAmong_drop_eq_none hselect _
    exact ⟨_, _, trimAndScan_of_noMatch hb diag, trimAndScan_of_noMatch hselect diag, h.respond rfl⟩
  | some selected =>
    obtain ⟨k, pos⟩ := selected
    obtain ⟨p, rfl⟩ := Nat.exists_eq_add_of_le (hrecent k pos hselect)
    have hb : selectKind b.cfg.matchGrid b.trim.buf = some (k, p) := by
      rw [hgrid, h.buf_eq]
      exact selectAmong_drop hselect
    exact ⟨_, _, trimAndScan_of_match hb diag, trimAndScan_of_match hselect diag, h.serveMatch k p _ _ diag⟩

/-- What a legal PUSH receives is the settled buffer with an admitted chunk behind it, or with nothing. -/
theorem received_buf (s : State) (chunk : List Byte) :
    ∃ added : List Byte, added.length ≤ chunk.length ∧ (s.received chunk).buf = s.buf ++ added := by
  unfold State.received
  split
  · exact ⟨[], Nat.zero_le _, by simp⟩
  · exact ⟨chunk, le_rfl, rfl⟩

/-- A PUSH keeps twins, since the capacity holds an admitted chunk and the 31 bytes before it (R204). -/
theorem execPush_twin {cap : Nat} {b u : State} (hlarge : u.cfg.chunkMax + 31 ≤ cap)
    (h : State.BoundedTwin cap b u) (hsettled : u.Settled) (chunk : List Byte) :
    ∃ b' u', execPush chunk b = .next b' ∧ execPush chunk u = .next u' ∧
      State.BoundedTwin cap b' u' ∧ u'.Settled := by
  rcases lt_or_ge u.cfg.chunkMax chunk.length with hlong | hadmitted
  · exact ⟨_, _, execPush_of_long (by rwa [h.chunkMax_eq]), execPush_of_long hlong, h.raiseIllegal, hsettled⟩
  · rw [execPush_of_admitted hadmitted, execPush_of_admitted (h.chunkMax_eq ▸ hadmitted)]
    obtain ⟨added, hadded, hreceived⟩ := received_buf u chunk
    obtain ⟨b', u', hb, hu, htwin⟩ := trimAndScan_twin (h.received chunk) (diagPrefix chunk) fun k pos hselect => by
      rw [trim_of_unbounded (by rw [State.received_cfg, h.unbounded_bufCap])] at hselect ⊢
      rw [State.received_cfg, hreceived] at hselect ⊢
      have hrecent := selected_is_recent hsettled hselect
      have hdropped : (u.buf ++ added).length - cap ≤ u.buf.length - 31 := by
        rw [List.length_append]; omega
      exact (Nat.mul_le_mul_left _ hdropped).trans hrecent
    exact ⟨b', u', hb, hu, htwin, trimAndScan_settled hu⟩

/-! ### Steps and runs of twins -/

theorem exec_twin {cap : Nat} {b u : State} {i : Instr} (hcommand : i.isCommand = true)
    (hlarge : u.cfg.chunkMax + 31 ≤ cap) (h : State.BoundedTwin cap b u) (hsettled : u.Settled) :
    ∃ b' u', exec i b = .next b' ∧ exec i u = .next u' ∧ State.BoundedTwin cap b' u' ∧ u'.Settled := by
  cases i with
  | reset => exact ⟨_, _, rfl, rfl, h.clear_acknowledge, .inl rfl⟩
  | flush => exact ⟨_, _, rfl, rfl, h.clear_acknowledge, .inl rfl⟩
  | push chunk => exact execPush_twin hlarge h hsettled chunk
  | crcq len payload =>
    refine ⟨_, _, rfl, rfl, h.respond ?_, hsettled⟩
    rw [h.crcTable_eq]
    rfl
  | _ => simp [Instr.isCommand] at hcommand

theorem step_of_decode_incomplete {s : State} (h : decode .command s.cmdIn = .incomplete) : step s = .next s := by
  simp only [step, h]

theorem step_of_decode_rejected {s : State} {why : Rejection} {rest : List Byte}
    (h : decode .command s.cmdIn = .rejected why rest) : step s = .next (s.withCmdIn rest).raiseIllegal := by
  simp only [step, h]

/-- Settles O59: twins take the same command, and every command keeps them twins and the unbounded buffer settled. -/
theorem boundedBufferSimulatesUnbounded : Obligations.BoundedBufferSimulatesUnbounded := by
  intro cap b u hlarge h hsettled
  rcases step_cases u with ⟨hdecode, hu⟩ | ⟨why, rest, hdecode, hu⟩ | ⟨i, rest, hdecode, hu⟩
  · have hb := step_of_decode_incomplete (h.cmdIn_eq ▸ hdecode)
    exact ⟨_, _, hb, hu, h, hsettled⟩
  · have hb := step_of_decode_rejected (h.cmdIn_eq ▸ hdecode)
    exact ⟨_, _, hb, hu, (h.withCmdIn rest).raiseIllegal, hsettled⟩
  · rw [hu, step_of_decode_instr (h.cmdIn_eq ▸ hdecode)]
    exact exec_twin (isCommand_of_decode hdecode) hlarge (h.withCmdIn rest) hsettled

/-- Runs of twins of any length end in twins. -/
theorem run_twin {cap : Nat} (n : Nat) {b u : State} (hlarge : u.cfg.chunkMax + 31 ≤ cap)
    (h : State.BoundedTwin cap b u) (hsettled : u.Settled) :
    ∃ b' u' : State, Host.Core.run Sys2Proof.core n b = .next b' ∧ Host.Core.run Sys2Proof.core n u = .next u' ∧
      State.BoundedTwin cap b' u' := by
  induction n generalizing b u with
  | zero => exact ⟨b, u, rfl, rfl, h⟩
  | succ n ih =>
    obtain ⟨b₁, u₁, hb, hu, htwin, hsettled₁⟩ := boundedBufferSimulatesUnbounded cap b u hlarge h hsettled
    rw [run_succ_of_step hb, run_succ_of_step hu]
    obtain ⟨hcfg, -⟩ := step_cfg_and_bufferAfter hu
    exact ih (by rwa [hcfg]) htwin hsettled₁

/-- Settles O60: power-on states over the same port are twins with a settled buffer, and stay twins. -/
theorem capacityDoesNotShowInFrames : Obligations.CapacityDoesNotShowInFrames := by
  intro cfg cap n stream hcap hlarge
  have htwin : State.BoundedTwin cap { State.powerOn { cfg with bufCap := some cap } with cmdIn := stream }
      { State.powerOn cfg with cmdIn := stream } :=
    ⟨hcap, rfl, rfl, (trimmed_nil _).symm, rfl, rfl⟩
  obtain ⟨b, u, hb, hu, -, -, -, -, hdecoder, hresponses⟩ := run_twin n hlarge htwin (.inl rfl)
  exact ⟨b, u, hb, hu, hdecoder, hresponses⟩

end Sys2Proof.Machine
end

section
/-! Words as numbers, and the command decoder both ways (spec/30_encoding.md R61 to R63, R69, R75): what it accepts is
the encoding of one well-formed command, and legal or not a command is taken whole. -/

namespace Sys2Proof

/-! ### Bit fields as quotients and remainders -/

theorem toNat_append_eq_add {m n : Nat} (x : BitVec m) (y : BitVec n) :
    (x ++ y).toNat = x.toNat * 2 ^ n + y.toNat := by
  rw [BitVec.toNat_append, ← Nat.shiftLeft_add_eq_or_of_lt y.isLt, Nat.shiftLeft_eq]

theorem extractLsb'_toNat_eq {m : Nat} (x : BitVec m) (start len : Nat) :
    (x.extractLsb' start len).toNat = x.toNat / 2 ^ start % 2 ^ len := by
  rw [BitVec.extractLsb'_toNat, Nat.shiftRight_eq_div_pow]

theorem extractLsb'_eq_iff {m : Nat} {x : BitVec m} {start len : Nat} {y : BitVec len} :
    x.extractLsb' start len = y ↔ x.toNat / 2 ^ start % 2 ^ len = y.toNat := by
  rw [← BitVec.toNat_inj, extractLsb'_toNat_eq]

theorem wordOfBytes_toNat (b3 b2 b1 b0 : Byte) :
    (wordOfBytes b3 b2 b1 b0).toNat =
      b3.toNat * 2 ^ 24 + b2.toNat * 2 ^ 16 + b1.toNat * 2 ^ 8 + b0.toNat := by
  rw [wordOfBytes, toNat_append_eq_add, toNat_append_eq_add, toNat_append_eq_add]
  omega

theorem commandWord_toNat (op : BitVec 4) (arg : BitVec 12) (n : BitVec 16) :
    (commandWord op arg n).toNat = op.toNat * 2 ^ 28 + arg.toNat * 2 ^ 16 + n.toNat := by
  rw [commandWord, toNat_append_eq_add, toNat_append_eq_add]
  omega

/-- A command word is made of its three fields (R61). -/
theorem commandWord_fields (w : Word) : commandWord (opField w) (argField w) (countField w) = w := by
  apply BitVec.eq_of_toNat_eq
  rw [commandWord_toNat, opField, argField, countField]
  simp only [extractLsb'_toNat_eq]
  have := w.isLt
  omega

/-- The bytes of a word by value, bits 31:24 first (R61). -/
theorem bytesOfWord_toNat (w : Word) :
    (bytesOfWord w).map BitVec.toNat =
      [w.toNat / 2 ^ 24, w.toNat / 2 ^ 16 % 256, w.toNat / 2 ^ 8 % 256, w.toNat % 256] := by
  have htop : w.toNat / 2 ^ 24 % 2 ^ 8 = w.toNat / 2 ^ 24 := by
    have := w.isLt
    omega
  simp only [bytesOfWord, List.map_cons, List.map_nil, extractLsb'_toNat_eq, htop, pow_zero,
    Nat.div_one]
  rfl

/-- The bytes of a word made of four bytes are those bytes (R61). -/
theorem bytesOfWord_wordOfBytes (b3 b2 b1 b0 : Byte) :
    bytesOfWord (wordOfBytes b3 b2 b1 b0) = [b3, b2, b1, b0] := by
  have h3 := b3.isLt
  have h2 := b2.isLt
  have h1 := b1.isLt
  have h0 := b0.isLt
  simp only [bytesOfWord, List.cons.injEq, extractLsb'_eq_iff, wordOfBytes_toNat]
  refine ⟨?_, ?_, ?_, ?_, trivial⟩ <;> omega

/-- Settles O4: the word is made of its fields, and its bytes are quotients and remainders of its value. -/
theorem commandWordFields : Obligations.CommandWordFields := by
  intro w
  refine ⟨?_, bytesOfWord_toNat w⟩
  rw [← commandWord_toNat, commandWord_fields]

/-! ### What a command word is read as -/

/-- The command `i` is what word `w` and data bytes `data` say (R62, R69): they are its encoding, and the word is legal
under a configuration exactly when the command keeps its `CHUNK_MAX`. -/
structure Reads (w : Word) (data : List Byte) (i : Instr) : Prop where
  encode_eq : encode i = bytesOfWord w ++ data
  wf : i.wf = true
  legal_iff : ∀ cfg, Machine.legalWord cfg w ↔ Machine.keepsChunkDuty cfg i = true

theorem reads_reset : Reads (commandWord 1 0 0) [] .reset :=
  ⟨rfl, rfl, by simp [Machine.legalWord, Machine.keepsChunkDuty]⟩

theorem reads_flush : Reads (commandWord 3 0 0) [] .flush :=
  ⟨rfl, rfl, by simp [Machine.legalWord, Machine.keepsChunkDuty]⟩

theorem reads_push {n : BitVec 16} {data : List Byte} (h : data.length = n.toNat) :
    Reads (commandWord 2 0 n) data (.push data) := by
  refine ⟨by simp [encode, h], ?_, by simp [Machine.legalWord, Machine.keepsChunkDuty, h]⟩
  have := n.isLt
  simp only [Instr.wf, decide_eq_true_eq]
  omega

theorem reads_crcq {arg : BitVec 12} {n : BitVec 16} {data : List Byte} (h : data.length = n.toNat) :
    Reads (commandWord 4 arg n) data (.crcq arg.toNat data) := by
  refine ⟨by simp [encode, h], ?_, by simp [Machine.legalWord, Machine.keepsChunkDuty]⟩
  have := arg.isLt
  have := n.isLt
  simp only [Instr.wf, Bool.and_eq_true, decide_eq_true_eq]
  omega

theorem legalWord_commandWord {cfg : Config} {op : BitVec 4} {arg : BitVec 12} {n : BitVec 16} :
    Machine.legalWord cfg (commandWord op arg n) ↔
      ((op = 1 ∨ op = 3) ∧ arg = 0 ∧ n = 0) ∨ (op = 2 ∧ arg = 0 ∧ n.toNat ≤ cfg.chunkMax) ∨ op = 4 := by
  simp only [Machine.legalWord, opField_commandWord, argField_commandWord, countField_commandWord]

/-- A decoder's answer to word `w` with its data bytes and then `rest`: the command they say, or a rejection of a
word that no configuration makes legal; `rest` is left either way (R75). -/
def Answers (w : Word) (data rest : List Byte) (answer : Decoded) : Prop :=
  (∃ i, answer = .instr i rest ∧ Reads w data i) ∨
  (∃ why, answer = .rejected why rest ∧ ∀ cfg, ¬ Machine.legalWord cfg w)

/-- RESET and FLUSH: a word with a non-zero ARG or N is rejected (R69). -/
theorem answers_control {op : BitVec 4} {arg : BitVec 12} {n : BitVec 16} {data : List Byte} {i : Instr}
    (hdata : data.length = n.toNat) (hop : op = 1 ∨ op = 3) (hreads : Reads (commandWord op 0 0) [] i)
    (rest : List Byte) :
    Answers (commandWord op arg n) data rest
      (if arg = 0 then if n = 0 then .instr i rest else .rejected (.countNotZero op) rest
        else .rejected (.argNotZero op) rest) := by
  have hop' : op ≠ 2 ∧ op ≠ 4 := by rcases hop with rfl | rfl <;> decide
  split_ifs with harg hn
  · subst harg hn
    obtain rfl : data = [] := List.eq_nil_of_length_eq_zero hdata
    exact .inl ⟨i, rfl, hreads⟩
  · exact .inr ⟨_, rfl, fun cfg => by rw [legalWord_commandWord]; tauto⟩
  · exact .inr ⟨_, rfl, fun cfg => by rw [legalWord_commandWord]; tauto⟩

theorem answers_push {arg : BitVec 12} {n : BitVec 16} {data : List Byte} (hdata : data.length = n.toNat)
    (rest : List Byte) :
    Answers (commandWord 2 arg n) data rest
      (if arg = 0 then .instr (.push data) rest else .rejected (.argNotZero 2) rest) := by
  split_ifs with harg
  · subst harg
    exact .inl ⟨_, rfl, reads_push hdata⟩
  · exact .inr ⟨_, rfl, fun cfg => by rw [legalWord_commandWord]; simp_all⟩

/-- The answer to a word with its N data bytes, by the word's OP (R62). -/
theorem answers_decodeWord {w : Word} {data : List Byte} (hdata : data.length = (countField w).toNat)
    (rest : List Byte) : Answers w data rest (decodeWord w data rest) := by
  obtain ⟨op, arg, n, rfl⟩ : ∃ op arg n, w = commandWord op arg n := ⟨_, _, _, (commandWord_fields w).symm⟩
  rw [countField_commandWord] at hdata
  simp only [decodeWord, opField_commandWord, argField_commandWord, countField_commandWord, Bool.not_eq_true',
    decide_eq_false_iff_not, ite_not]
  split
  · next hop =>
    obtain rfl : op = 1 := BitVec.eq_of_toNat_eq hop
    exact answers_control hdata (.inl rfl) reads_reset rest
  · next hop =>
    obtain rfl : op = 2 := BitVec.eq_of_toNat_eq hop
    exact answers_push hdata rest
  · next hop =>
    obtain rfl : op = 3 := BitVec.eq_of_toNat_eq hop
    exact answers_control hdata (.inr rfl) reads_flush rest
  · next hop =>
    obtain rfl : op = 4 := BitVec.eq_of_toNat_eq hop
    exact .inl ⟨_, rfl, reads_crcq hdata⟩
  · next h1 h2 h3 h4 =>
    have hreserved : op ≠ 1 ∧ op ≠ 2 ∧ op ≠ 3 ∧ op ≠ 4 := by
      refine ⟨?_, ?_, ?_, ?_⟩ <;> rintro rfl <;> contradiction
    exact .inr ⟨_, rfl, fun cfg => by rw [legalWord_commandWord]; tauto⟩

/-- A whole command at the front of the bytes is answered as its word and data bytes. -/
theorem answers_decode {w : Word} {data : List Byte} (hdata : data.length = (countField w).toNat)
    (rest : List Byte) : Answers w data rest (decode .command (bytesOfWord w ++ data ++ rest)) := by
  rw [decode_command_word hdata]
  exact answers_decodeWord hdata rest

/-- Bytes either begin with a whole command or are incomplete (R75). -/
theorem decode_command_cases (bytes : List Byte) :
    decode .command bytes = .incomplete ∨
    ∃ w data rest, data.length = (countField w).toNat ∧ bytes = bytesOfWord w ++ data ++ rest := by
  match bytes with
  | b3 :: b2 :: b1 :: b0 :: tail =>
    let n := (countField (wordOfBytes b3 b2 b1 b0)).toNat
    rcases lt_or_ge tail.length n with hshort | hwhole
    · exact .inl (if_pos hshort)
    · refine .inr ⟨wordOfBytes b3 b2 b1 b0, tail.take n, tail.drop n, List.length_take_of_le hwhole, ?_⟩
      simp [bytesOfWord_wordOfBytes]
  | [] | [_] | [_, _] | [_, _, _] => exact .inl rfl

/-! ### The statements -/

/-- Settles O1, by the round trip of one command that the run of a stream rests on. -/
theorem commandDecodeOfEncode : Obligations.CommandDecodeOfEncode := by
  intro i rest hcommand hwf
  exact decode_command_encode hcommand hwf rest

/-- Settles O3: bytes that are accepted begin with a whole command, and the command its word and data bytes say encodes
to them. -/
theorem commandEncodeOfDecode : Obligations.CommandEncodeOfDecode := by
  intro bytes rest i hdecode
  rcases decode_command_cases bytes with hincomplete | ⟨w, data, rest', hdata, rfl⟩
  · cases hincomplete.symm.trans hdecode
  · rcases answers_decode hdata rest' with ⟨i', hinstr, hreads⟩ | ⟨why, hrejected, -⟩
    · cases hinstr.symm.trans hdecode
      exact ⟨by rw [hreads.encode_eq], isCommand_of_decode hdecode, hreads.wf⟩
    · cases hrejected.symm.trans hdecode

/-- A command whose data bytes are not all there is not taken (R75). -/
theorem decode_command_short {w : Word} {data : List Byte} (h : data.length < (countField w).toNat) :
    decode .command (bytesOfWord w ++ data) = .incomplete := by
  simp [decode, decodeCommand, bytesOfWord, wordOfBytes_bytesOfWord, h]

/-- Settles O5: every word with its data bytes is answered with the bytes behind them left, and fewer bytes are
incomplete. -/
theorem commandStreamStaysInStep : Obligations.CommandStreamStaysInStep := by
  refine ⟨fun w data rest hdata => ?_, fun w data hshort => decode_command_short hshort, fun bytes hshort => ?_⟩
  · rcases answers_decode hdata rest with ⟨i, hinstr, -⟩ | ⟨why, hrejected, -⟩
    · exact .inl ⟨i, hinstr⟩
    · exact .inr ⟨why, hrejected⟩
  · rcases decode_command_cases bytes with hincomplete | ⟨w, data, rest, -, rfl⟩
    · exact hincomplete
    · simp [bytesOfWord] at hshort
      omega

/-! ### The other formats -/

/-- A tag is read as the row of its kind (R70). -/
theorem decode_signature_tag (k : Kind) (pos : Nat) (ovf diag : Bool) :
    decode (.signature pos ovf diag) k.tag = .instr (k.instr pos ovf diag) [] := by
  cases k <;> rfl

/-- A chunk that begins with `#HR` is read to its end (R73, R102). -/
theorem decode_chunk_diagTag (rest : List Byte) : decode .chunk (diagTag ++ rest) = .instr (.diagPrefixHr rest) [] := by
  simp [decode, decodeChunk, diagPrefix, diagTag]

/-- Settles O2, format by format: a command at the port with nothing behind it, a tag, a whole chunk. -/
theorem everyFormatDecodeOfEncode : Obligations.EveryFormatDecodeOfEncode := by
  intro i hwf
  have hcommand (hi : i.isCommand = true) : decode .command (encode i) = .instr i [] := by
    simpa using decode_command_encode hi hwf []
  cases i with
  | reset => exact hcommand rfl
  | push chunk => exact hcommand rfl
  | flush => exact hcommand rfl
  | crcq len payload => exact hcommand rfl
  | tagIgnoredHeater pos ovf diag => exact decode_signature_tag .ignoredHeater pos ovf diag
  | tagChStatus pos ovf diag => exact decode_signature_tag .chStatus pos ovf diag
  | tagHcStatus pos ovf diag => exact decode_signature_tag .hcStatus pos ovf diag
  | tagDhwStatus pos ovf diag => exact decode_signature_tag .dhwStatus pos ovf diag
  | tagDatetime pos ovf diag => exact decode_signature_tag .datetime pos ovf diag
  | diagPrefixHr rest => exact decode_chunk_diagTag rest

/-- Settles O6: the decoders run on the given bytes; the five tags are the tags of their kinds. -/
theorem spelledOutBytesDecode : Obligations.SpelledOutBytesDecode := by
  refine ⟨by decide, by decide, by decide, by decide, ?_, ?_, ?_, ?_, ?_, ?_⟩
  · exact decode_signature_tag .ignoredHeater 3 true false
  · exact decode_signature_tag .chStatus 0 false true
  · exact decode_signature_tag .hcStatus 1 false false
  · exact decode_signature_tag .dhwStatus 2 true true
  · exact decode_signature_tag .datetime 9 false false
  · exact decode_chunk_diagTag [0x20]

end Sys2Proof
end

section
/-! The packed words of a response (spec/30_encoding.md R65 to R68): their fields, and what they determine. -/

namespace Sys2Proof.Machine

/-- The status word by value: its seven fields at their weights (R65). -/
theorem statusWord_toNat (r : Response) :
    (statusWord r).toNat =
      r.crcVal.toNat * 2 ^ 16 + r.crcReason.code.toNat * 2 ^ 11 + (BitVec.ofBool r.crcOk).toNat * 2 ^ 10 +
        (BitVec.ofBool r.diag).toNat * 2 ^ 9 + (BitVec.ofBool r.ovf).toNat * 2 ^ 8 +
        (kindCode r.kind).toNat * 2 ^ 4 + r.evt.code.toNat := by
  unfold statusWord
  rw [toNat_append_eq_add, toNat_append_eq_add, toNat_append_eq_add, toNat_append_eq_add, toNat_append_eq_add,
    toNat_append_eq_add, toNat_append_eq_add, toNat_append_eq_add, toNat_append_eq_add]
  simp only [BitVec.toNat_ofNat, BitVec.ofNat_eq_ofNat]
  omega

/-- Every field of the status word at its bits, and the reserved bits 0 (R65). -/
theorem statusWord_fields (r : Response) :
    (statusWord r).extractLsb' 0 4 = r.evt.code ∧
    (statusWord r).extractLsb' 4 3 = kindCode r.kind ∧
    (statusWord r).extractLsb' 7 1 = 0 ∧
    (statusWord r).extractLsb' 8 1 = BitVec.ofBool r.ovf ∧
    (statusWord r).extractLsb' 9 1 = BitVec.ofBool r.diag ∧
    (statusWord r).extractLsb' 10 1 = BitVec.ofBool r.crcOk ∧
    (statusWord r).extractLsb' 11 2 = r.crcReason.code ∧
    (statusWord r).extractLsb' 13 3 = 0 ∧
    (statusWord r).extractLsb' 16 8 = r.crcVal ∧
    (statusWord r).extractLsb' 24 8 = 0 := by
  have hevt := r.evt.code.isLt
  have hkind := (kindCode r.kind).isLt
  have hovf := (BitVec.ofBool r.ovf).isLt
  have hdiag := (BitVec.ofBool r.diag).isLt
  have hok := (BitVec.ofBool r.crcOk).isLt
  have hreason := r.crcReason.code.isLt
  have hval := r.crcVal.isLt
  simp only [extractLsb'_eq_iff, statusWord_toNat, BitVec.ofNat_eq_ofNat, BitVec.toNat_ofNat]
  refine ⟨?_, ?_, ?_, ?_, ?_, ?_, ?_, ?_, ?_, ?_⟩ <;> omega

/-! ### The codes -/

/-- The event of a code (R66); the codes 7 to 14 are never produced. -/
def Event.ofCode (c : BitVec 4) : Event :=
  match c.toNat with
  | 0 => .noMatch
  | 1 => .wait
  | 2 => .frameOk
  | 3 => .frameBad
  | 4 => .ignored
  | 5 => .crcResult
  | 6 => .ack
  | _ => .illegal

/-- The kind of a code (R68, R70): 7 is none. -/
def kindOfCode (c : BitVec 3) : Option Kind :=
  match c.toNat with
  | 0 => some .ignoredHeater
  | 1 => some .chStatus
  | 2 => some .hcStatus
  | 3 => some .dhwStatus
  | 4 => some .datetime
  | _ => none

/-- The reason of a code (R68). -/
def CrcReason.ofCode (c : BitVec 2) : CrcReason :=
  match c.toNat with
  | 0 => .none
  | 1 => .mismatch
  | 2 => .short
  | _ => .range

theorem Event.ofCode_code : Function.LeftInverse Event.ofCode Event.code := by
  intro e
  cases e <;> rfl

theorem kindOfCode_kindCode : Function.LeftInverse kindOfCode kindCode
  | none => rfl
  | some k => by cases k <;> rfl

theorem CrcReason.ofCode_code : Function.LeftInverse CrcReason.ofCode CrcReason.code := by
  intro reason
  cases reason <;> rfl

/-! ### The statements -/

/-- Settles O7: the fields at their bits, and the codes by the tables of R66, R68 and R70. -/
theorem statusWordLayout : Obligations.StatusWordLayout :=
  ⟨statusWord_fields, by decide, by decide, by decide, by decide⟩

/-- Settles O8: a field of the status word is its bits, and no two values of it have one code. -/
theorem statusWordLosesNothing : Obligations.StatusWordLosesNothing := by
  intro r r' h
  obtain ⟨hevt, hkind, -, hovf, hdiag, hok, hreason, -, hval, -⟩ := statusWord_fields r
  obtain ⟨hevt', hkind', -, hovf', hdiag', hok', hreason', -, hval', -⟩ := statusWord_fields r'
  rw [h] at hevt hkind hovf hdiag hok hreason hval
  exact ⟨Event.ofCode_code.injective (hevt.symm.trans hevt'), kindOfCode_kindCode.injective (hkind.symm.trans hkind'),
    BitVec.ofBool_eq_iff_eq.1 (hovf.symm.trans hovf'), BitVec.ofBool_eq_iff_eq.1 (hdiag.symm.trans hdiag'),
    BitVec.ofBool_eq_iff_eq.1 (hok.symm.trans hok'), CrcReason.ofCode_code.injective (hreason.symm.trans hreason'),
    hval.symm.trans hval'⟩

/-- The information word by value, where there is one (R67). -/
theorem infoWord_eq_some {r : Response} {info : Word} (h : infoWord r = some info) :
    r.bufLen < 65536 ∧ r.matchOff < 65536 ∧ info.toNat = r.matchOff * 2 ^ 16 + r.bufLen := by
  unfold infoWord at h
  split_ifs at h with hfits
  obtain ⟨hlen, hoff⟩ := hfits
  cases h
  refine ⟨hlen, hoff, ?_⟩
  rw [toNat_append_eq_add, BitVec.toNat_ofNat, BitVec.toNat_ofNat, Nat.mod_eq_of_lt hoff, Nat.mod_eq_of_lt hlen]

/-- Settles O9: the two halves of the information word are the quotient and the remainder of its value by 65536. -/
theorem packedResponseLayout : Obligations.PackedResponseLayout := by
  refine ⟨fun r => by simp [packResponse, infoWord], fun r p h => ?_⟩
  obtain ⟨info, hinfo, rfl⟩ := Option.map_eq_some_iff.1 h
  obtain ⟨hlen, hoff, hvalue⟩ := infoWord_eq_some hinfo
  refine ⟨rfl, rfl, ?_, ?_⟩ <;> rw [extractLsb'_toNat_eq, hvalue] <;> omega

end Sys2Proof.Machine
end

section
/-! What an instruction answers (spec/30_encoding.md R64, R66 to R69; spec/60_exceptions.md R170, R171): one response of
a shape the spec gives its event, and ILLEGAL exactly when the word of the command is not legal. -/

namespace Sys2Proof.Machine

/-- Settles O15: an instruction's effect appends its one response and keeps the configuration and the port. -/
theorem everyInstructionAnswersOnce : Obligations.EveryInstructionAnswersOnce := by
  intro i s
  obtain ⟨e, -, he⟩ := exec_effect i s
  exact ⟨s.finish e, e.response, he s (.refl s), rfl, rfl, rfl⟩

/-! ### The shapes of responses -/

/-- The answer to a command that is not ILLEGAL: one more response, of a lawful shape and another event. -/
def State.AnswersLegally (s t : State) : Prop :=
  ∃ r, t.responses = s.responses ++ [r] ∧ r.Lawful ∧ r.evt ≠ .illegal

theorem blank_illegal_lawful (len : Nat) : (Response.blank .illegal len).Lawful := ⟨rfl, nofun, rfl⟩

theorem action_eq_ignore_iff {k : Kind} : k.action = .ignore ↔ k = .ignoredHeater := by
  cases k <;> decide

/-- The check of an extracted frame neither ends SHORT nor RANGE, since the frame has its declared length (R110). -/
theorem crcCheck_of_whole_frame (table : Vector Byte 256) {frame : List Byte} {k : Kind}
    (h : frame.length = k.length) :
    (crcCheck table frame k.length).reason =
      if (crcCheck table frame k.length).ok then .none else .mismatch := by
  have hlength := k.length_bounds.1
  rcases crcCheck_cases table frame k.length with ⟨hshort, -⟩ | ⟨-, hrange, -⟩ | ⟨-, -, -, hok⟩ | ⟨-, -, -, hbad⟩
  · omega
  · omega
  · simp [hok]
  · simp [hbad]

/-- FRAME_OK without a reason and FRAME_BAD with MISMATCH (R68, R110). -/
theorem check_response_lawful {c : CrcResult} {k : Kind} {frame : List Byte}
    (hreason : c.reason = if c.ok then .none else .mismatch) (hframe : frame.length = k.length)
    (hkind : k ≠ .ignoredHeater) (pos : Nat) (ovf diag : Bool) :
    (Effect.check c k pos ovf diag frame).response.Lawful ∧
      (Effect.check c k pos ovf diag frame).response.evt ≠ .illegal := by
  obtain ⟨ok, reason, val⟩ := c
  cases ok with
  | true =>
    obtain rfl : reason = .none := hreason
    exact ⟨⟨hframe, fun _ => rfl, ⟨k, rfl, hkind⟩, rfl, rfl⟩, nofun⟩
  | false =>
    obtain rfl : reason = .mismatch := hreason
    exact ⟨⟨hframe, nofun, ⟨k, rfl, hkind⟩, rfl, rfl, rfl⟩, nofun⟩

/-- The check passes exactly when it gives no reason (R68). -/
theorem crcCheck_ok_iff {table : Vector Byte 256} {bytes : List Byte} {len : Nat} :
    (crcCheck table bytes len).ok = true ↔ (crcCheck table bytes len).reason = .none := by
  rcases crcCheck_cases table bytes len with ⟨-, h⟩ | ⟨-, -, h⟩ | ⟨-, -, -, h⟩ | ⟨-, -, -, h⟩ <;> simp [h]

section
variable (s : State) (k : Kind) (pos : Nat) (ovf diag : Bool)

theorem awaitFrame_answersLegally : s.AnswersLegally (s.awaitFrame k pos ovf diag) :=
  ⟨_, rfl, ⟨rfl, nofun, nofun, rfl, rfl, rfl⟩, nofun⟩

theorem ignoreFrame_answersLegally {frame : List Byte} (hframe : frame.length = k.length)
    (haction : k.action = .ignore) : s.AnswersLegally (s.ignoreFrame k pos ovf diag frame) := by
  obtain rfl := action_eq_ignore_iff.1 haction
  exact ⟨_, rfl, ⟨hframe, nofun, rfl, rfl, rfl, rfl, rfl⟩, nofun⟩

theorem checkFrame_answersLegally {frame : List Byte} (hframe : frame.length = k.length)
    (haction : k.action = .decode) : s.AnswersLegally (s.checkFrame k pos ovf diag frame) := by
  have hkind : k ≠ .ignoredHeater := by
    rintro rfl
    cases haction
  rw [checkFrame_eq_finish]
  exact ⟨_, s.finish_responses _,
    check_response_lawful (crcCheck_of_whole_frame s.cfg.crcTable hframe) hframe hkind pos ovf diag⟩

/-- A signature served at any position is answered lawfully (R107 to R110). -/
theorem serveMatch_answersLegally : s.AnswersLegally (s.serveMatch k pos ovf diag) := by
  rcases serveMatch_cases s k pos ovf diag with ⟨-, hserve⟩ | ⟨hfull, haction, hserve⟩ | ⟨hfull, haction, hserve⟩ <;>
    rw [hserve]
  · exact awaitFrame_answersLegally s k pos ovf diag
  · exact ignoreFrame_answersLegally s k pos ovf diag (extract_length hfull) haction
  · exact checkFrame_answersLegally s k pos ovf diag (extract_length hfull) haction

end

theorem trimAndScan_answersLegally (diag : Bool) (s : State) :
    ∃ t, trimAndScan diag s = .next t ∧ s.AnswersLegally t := by
  rcases trimAndScan_cases diag s with ⟨-, hrun⟩ | ⟨k, pos, -, hrun⟩
  · exact ⟨_, hrun, _, rfl, ⟨rfl, nofun, rfl, rfl, rfl, rfl, rfl⟩, nofun⟩
  · exact ⟨_, hrun, serveMatch_answersLegally s.trim k pos _ diag⟩

@[simp] theorem State.received_responses (s : State) (chunk : List Byte) :
    (s.received chunk).responses = s.responses := by
  unfold State.received; split <;> rfl

/-! ### Commands -/

/-- A command that keeps the chunk duty is answered lawfully and not ILLEGAL (R69, R114, R140, R150, R151). -/
theorem exec_of_chunkDuty {i : Instr} {s : State} (hcommand : i.isCommand = true)
    (hduty : keepsChunkDuty s.cfg i = true) : ∃ t, exec i s = .next t ∧ s.AnswersLegally t := by
  cases i with
  | reset => exact ⟨_, rfl, _, rfl, ⟨rfl, nofun, rfl⟩, nofun⟩
  | flush => exact ⟨_, rfl, _, rfl, ⟨rfl, nofun, rfl⟩, nofun⟩
  | push chunk =>
    have hadmitted : chunk.length ≤ s.cfg.chunkMax := by simpa [keepsChunkDuty] using hduty
    obtain ⟨t, hrun, hanswer⟩ := trimAndScan_answersLegally (diagPrefix chunk) (s.received chunk)
    exact ⟨t, (execPush_of_admitted hadmitted).trans hrun, by simpa [State.AnswersLegally] using hanswer⟩
  | crcq len payload =>
    refine ⟨_, rfl, _, rfl, ⟨rfl, crcCheck_ok_iff.1, rfl, rfl, rfl, rfl, fun hfailed hnone => ?_⟩, nofun⟩
    exact Bool.false_ne_true (hfailed.symm.trans (crcCheck_ok_iff.2 hnone))
  | _ => simp [Instr.isCommand] at hcommand

/-- A command that breaks the chunk duty is answered ILLEGAL (R101). -/
theorem exec_of_broken_chunkDuty {i : Instr} {s : State} (hduty : keepsChunkDuty s.cfg i = false) :
    exec i s = .next s.raiseIllegal := by
  cases i with
  | push chunk => exact execPush_of_long (by simpa [keepsChunkDuty] using hduty)
  | _ => simp [keepsChunkDuty] at hduty

/-- What a command can do to the responses. -/
theorem exec_responses {i : Instr} (hcommand : i.isCommand = true) (s : State) :
    ∃ t r, exec i s = .next t ∧ t.responses = s.responses ++ [r] ∧ r.Lawful := by
  cases hduty : keepsChunkDuty s.cfg i with
  | true =>
    obtain ⟨t, hrun, r, hresponses, hlawful, -⟩ := exec_of_chunkDuty hcommand hduty
    exact ⟨t, r, hrun, hresponses, hlawful⟩
  | false => exact ⟨_, _, exec_of_broken_chunkDuty hduty, rfl, blank_illegal_lawful _⟩

/-- A step answers nothing, or one lawful response. -/
theorem step_responses {s t : State} (h : step s = .next t) :
    t.responses = s.responses ∨ ∃ r, t.responses = s.responses ++ [r] ∧ r.Lawful := by
  rcases step_cases s with ⟨-, hwait⟩ | ⟨why, rest, -, hillegal⟩ | ⟨i, rest, hdecode, hrun⟩
  · cases hwait.symm.trans h
    exact .inl rfl
  · cases hillegal.symm.trans h
    exact .inr ⟨_, rfl, blank_illegal_lawful _⟩
  · obtain ⟨t', r, hexec, hresponses, hlawful⟩ := exec_responses (isCommand_of_decode hdecode) (s.withCmdIn rest)
    cases (hrun.trans hexec).symm.trans h
    exact .inr ⟨r, hresponses, hlawful⟩

/-- Settles O58: a step appends at most one response, of a lawful shape. -/
theorem stepKeepsResponsesLawful : Obligations.StepKeepsResponsesLawful := by
  intro s t hlawful hstep
  rcases step_responses hstep with hnone | ⟨r, hone, hr⟩
  · rwa [hnone]
  · rw [hone]
    exact List.forall_mem_append.2 ⟨hlawful, List.forall_mem_singleton.2 hr⟩

/-! ### ILLEGAL -/

/-- A state that was answered otherwise was not answered ILLEGAL. -/
theorem State.AnswersLegally.ne_illegalAnswer {s t : State} (h : s.AnswersLegally t) : t ≠ s.illegalAnswer := by
  rintro rfl
  obtain ⟨r, hresponses, -, hevt⟩ := h
  obtain rfl := List.singleton_inj.1 (List.append_cancel_left hresponses)
  exact hevt rfl

/-- A command is answered ILLEGAL exactly when it breaks the chunk duty (R69, R101). -/
theorem exec_eq_illegalAnswer_iff {i : Instr} (hcommand : i.isCommand = true) (s : State) :
    exec i s = .next s.illegalAnswer ↔ keepsChunkDuty s.cfg i = false := by
  refine ⟨fun hillegal => ?_, exec_of_broken_chunkDuty⟩
  by_contra hduty
  obtain ⟨t, hrun, hanswer⟩ := exec_of_chunkDuty hcommand (Bool.not_eq_false _ ▸ hduty)
  cases hrun.symm.trans hillegal
  exact hanswer.ne_illegalAnswer rfl

/-- Settles O18: a rejected word is legal nowhere, and a command read from its word is ILLEGAL exactly when it breaks
the chunk duty, which is when the word is not legal. -/
theorem illegalExactlyWhenNotLegal : Obligations.IllegalExactlyWhenNotLegal := by
  intro s w data rest ⟨hdata, hport⟩
  have hanswers := answers_decode hdata rest
  rw [← hport] at hanswers
  rcases hanswers with ⟨i, hdecode, hreads⟩ | ⟨why, hdecode, hillegal⟩
  · rw [step_of_decode_instr hdecode, hreads.legal_iff, Bool.not_eq_true]
    exact exec_eq_illegalAnswer_iff (isCommand_of_decode hdecode) (s.withCmdIn rest)
  · exact iff_of_true (step_of_decode_rejected hdecode) (hillegal s.cfg)

end Sys2Proof.Machine
end

section
/-! The text of a PUSH read back (spec/30_encoding.md R76; entry 14): the line splits into the mnemonic and one word of
two hex digits for each byte. -/

namespace Sys2Proof.Machine

/-! ### Hex digits -/

theorem hexDigit_hexChar : ∀ n : Nibble, hexDigit (hexChar n) = some n.toNat := by decide

theorem hexChar_ne_space : ∀ n : Nibble, hexChar n ≠ ' ' := by decide

/-- The two upper-case hex digits of a byte (R14). -/
def byteWord (b : Byte) : List Char := [hexChar (b.extractLsb' 4 4), hexChar (b.extractLsb' 0 4)]

theorem byteText_eq (b : Byte) : byteText b = ' ' :: byteWord b := rfl

/-- A byte from the values of its two nibbles (R16). -/
theorem byte_ofNat_nibbles (b : Byte) :
    BitVec.ofNat 8 (16 * (b.extractLsb' 4 4).toNat + (b.extractLsb' 0 4).toNat) = b := by
  apply BitVec.eq_of_toNat_eq
  have := b.isLt
  rw [BitVec.toNat_ofNat, extractLsb'_toNat_eq, extractLsb'_toNat_eq]
  omega

theorem byteItem_byteWord (b : Byte) : byteItem (byteWord b) = some [b] := by
  simp only [byteItem, byteWord, hexDigit_hexChar, byte_ofNat_nibbles]

theorem byteItems_byteWords (chunk : List Byte) : byteItems (chunk.map byteWord) = some chunk := by
  induction chunk with
  | nil => rfl
  | cons b bs ih => simp [byteItems, byteItem_byteWord, ih]

/-! ### Words of a line -/

/-- Text that ends a word: the end of the line, or a space. -/
def EndsWord (text : List Char) : Prop := text = [] ∨ ∃ cs, text = ' ' :: cs

/-- A word without spaces is split off whole. -/
theorem splitWords_word {c : Char} {word text : List Char} (hword : ∀ d ∈ c :: word, d ≠ ' ')
    (htext : EndsWord text) : splitWords (c :: word ++ text) = (c :: word) :: splitWords text := by
  induction word generalizing c with
  | nil =>
    have hc : c ≠ ' ' := hword c (by simp)
    rcases htext with rfl | ⟨cs, rfl⟩ <;> simp [splitWords]
  | cons d word ih =>
    obtain ⟨hc, htail⟩ := List.forall_mem_cons.1 hword
    have hd : d ≠ ' ' := htail d (by simp)
    have hrest : splitWords (d :: (word ++ text)) = (d :: word) :: splitWords text := ih htail
    simp [splitWords, hd, hrest]

theorem endsWord_byteTexts (chunk : List Byte) : EndsWord (chunk.flatMap byteText) := by
  cases chunk with
  | nil => exact .inl rfl
  | cons b bs => exact .inr ⟨_, rfl⟩

/-- The text of the bytes splits into one word a byte. -/
theorem splitWords_byteTexts (chunk : List Byte) : splitWords (chunk.flatMap byteText) = chunk.map byteWord := by
  induction chunk with
  | nil => rfl
  | cons b bs ih =>
    calc splitWords (byteText b ++ bs.flatMap byteText)
      _ = splitWords (byteWord b ++ bs.flatMap byteText) := by simp [byteText_eq, splitWords]
      _ = byteWord b :: splitWords (bs.flatMap byteText) :=
        splitWords_word (by simp [hexChar_ne_space]) (endsWord_byteTexts bs)
      _ = (b :: bs).map byteWord := by rw [ih, List.map_cons]

/-- Settles O10: the words of the line are PUSH and the bytes of the chunk. -/
theorem pushTextAssembles : Obligations.PushTextAssembles := by
  intro chunk hlength
  have hwords : splitWords (pushText chunk) = ['P', 'U', 'S', 'H'] :: chunk.map byteWord := by
    rw [← splitWords_byteTexts]
    exact splitWords_word (by simp) (endsWord_byteTexts chunk)
  have hcommand : assembleWords (splitWords (pushText chunk)) = some (.push chunk) := by
    rw [hwords]
    simp [assembleWords, byteItems_byteWords]
  simp [assemble, hcommand, Instr.wf, hlength]

end Sys2Proof.Machine
end

section
/-! Between commands no complete frame of the selected kind waits in the buffer (spec/10_state.md R23): the receive
sequence leaves a settled buffer whatever it received, and every other command keeps the buffer or empties it. -/

namespace Sys2Proof.Machine

/-- Every command keeps the buffer settled (R107, R108, R111, R150, R151). -/
theorem exec_settled {i : Instr} {s t : State} (hcommand : i.isCommand = true) (hsettled : s.Settled)
    (h : exec i s = .next t) : t.Settled := by
  cases i with
  | reset => cases h; exact .inl rfl
  | flush => cases h; exact .inl rfl
  | crcq len payload => cases h; exact hsettled
  | push chunk =>
    rcases lt_or_ge s.cfg.chunkMax chunk.length with hlong | hadmitted
    · cases (execPush_of_long hlong).symm.trans h
      exact hsettled
    · exact trimAndScan_settled ((execPush_of_admitted hadmitted).symm.trans h)
  | _ => simp [Instr.isCommand] at hcommand

/-- Settles O54: waiting and the ILLEGAL answer keep the buffer, and every command keeps it settled. -/
theorem stepKeepsBufferSettled : Obligations.StepKeepsBufferSettled := by
  intro s t hsettled hstep
  rcases step_cases s with ⟨-, hwait⟩ | ⟨why, rest, -, hillegal⟩ | ⟨i, rest, hdecode, hrun⟩
  · cases hwait.symm.trans hstep
    exact hsettled
  · cases hillegal.symm.trans hstep
    exact hsettled
  · have htaken : (s.withCmdIn rest).Settled := hsettled
    exact exec_settled (isCommand_of_decode hdecode) htaken (hrun.symm.trans hstep)

end Sys2Proof.Machine
end

section
/-! The legality of a PUSH word (spec/40_demux.md R101). -/

namespace Sys2Proof.Machine

/-- A PUSH word is legal exactly when its ARG is zero and `CHUNK_MAX` admits its data bytes (R69, R101). -/
theorem legalWord_push_iff {cfg : Config} {w : Word} (hop : opField w = 2) :
    legalWord cfg w ↔ argField w = 0 ∧ (countField w).toNat ≤ cfg.chunkMax := by
  simp [legalWord, hop]

theorem decodeWord_push {w : Word} (hop : opField w = 2) (harg : argField w = 0) (data rest : List Byte) :
    decodeWord w data rest = .instr (.push data) rest := by
  simp [decodeWord, hop, harg]

/-- Settles O20: ILLEGAL is the answer exactly to the words that are not legal, and a word of `CHUNK_MAX` data bytes
with ARG zero is legal and is read as the PUSH of its data. -/
theorem pushLegality : Obligations.PushLegality := by
  intro s w data rest hpresents hop
  have hillegal := illegalExactlyWhenNotLegal s w data rest hpresents
  rw [legalWord_push_iff hop] at hillegal
  refine ⟨fun hbroken => hillegal.2 ?_, fun ⟨hcount, harg⟩ => ⟨?_, ?_⟩⟩
  · rintro ⟨harg, hadmitted⟩
    rcases hbroken with hlong | hnonzero
    · omega
    · exact hnonzero harg
  · obtain ⟨hdata, hport⟩ := hpresents
    exact step_of_decode_instr (by rw [hport, decode_command_word hdata, decodeWord_push hop harg])
  · exact fun hanswer => hillegal.1 hanswer ⟨harg, hcount.le⟩

end Sys2Proof.Machine
end

section
/-! The tag search and the scan, said as the rules say them (spec/40_demux.md R104 to R106, R111, R116): the search is
the least position of the tag, and the scan answers for the first kind in priority order that occurs. -/

namespace Sys2Proof

/-- The kinds stand in the list by their row number (R70, R105). -/
theorem Kind.priority_sorted : Kind.priority.Pairwise (fun k k' => k.index < k'.index) := by decide

theorem Kind.mem_priority (k : Kind) : k ∈ Kind.priority := by cases k <;> decide

end Sys2Proof

namespace Sys2Proof.Machine

/-! ### The search is the least occurrence -/

section
variable {α : Type} [DecidableEq α] {pat l : List α}

theorem findFirst_of_take_eq (h : l.take pat.length = pat) : findFirst pat l = some 0 := by
  cases l with
  | nil =>
    obtain rfl : pat = [] := by simpa using h.symm
    rfl
  | cons x xs => exact findFirst_cons_eq_some.2 (.inl ⟨h, rfl⟩)

/-- No occurrence stands before the one the search answers (R106). -/
theorem findFirst_le {p q : Nat} (h : findFirst pat l = some p) (hq : (l.drop q).take pat.length = pat) : p ≤ q := by
  by_contra hlower
  have hshifted : findFirst pat (l.drop q) = some (p - q) := findFirst_drop (by rw [h]; congr 1; omega)
  have hzero : p - q = 0 := Option.some.inj (hshifted.symm.trans (findFirst_of_take_eq hq))
  omega

theorem findFirst_eq_none_iff : findFirst pat l = none ↔ ∀ p, (l.drop p).take pat.length ≠ pat := by
  constructor
  · intro h p hstands
    cases (findFirst_drop_eq_none h p).symm.trans (findFirst_of_take_eq hstands)
  · intro h
    cases hfind : findFirst pat l with
    | none => rfl
    | some p => exact absurd (findFirst_spec hfind).1 (h p)

theorem findFirst_eq_some_iff {p : Nat} :
    findFirst pat l = some p ↔
      IsLeast { q | q + pat.length ≤ l.length ∧ (l.drop q).take pat.length = pat } p := by
  have hleast {p : Nat} (h : findFirst pat l = some p) :
      IsLeast { q | q + pat.length ≤ l.length ∧ (l.drop q).take pat.length = pat } p :=
    ⟨(findFirst_spec h).symm, fun q ⟨_, hq⟩ => findFirst_le h hq⟩
  refine ⟨hleast, fun h => ?_⟩
  cases hfind : findFirst pat l with
  | none => exact absurd h.1.2 (findFirst_eq_none_iff.1 hfind p)
  | some p' => rw [(hleast hfind).unique h]

end

/-- Settles O36: on either grid `Find` is the search of a sequence, of bytes or of nibbles. -/
theorem findIsLowestOccurrence : Obligations.FindIsLowestOccurrence := by
  intro k bytes
  have hnibbles : (nibbles k.tag).length = 8 := by rw [nibbles_length, k.tag_length]
  refine ⟨fun p => ?_, ?_, fun q => ?_, ?_⟩
  · rw [← k.tag_length]
    exact findFirst_eq_some_iff
  · rw [← k.tag_length]
    exact findFirst_eq_none_iff
  · rw [← hnibbles, ← nibbles_length]
    exact findFirst_eq_some_iff
  · rw [← hnibbles]
    exact findFirst_eq_none_iff

/-- Settles O38: an append does not move a found tag, and one it makes occur is four bytes that end in the chunk. -/
theorem appendKeepsFoundTags : Obligations.AppendKeepsFoundTags := by
  intro k bytes chunk grid
  refine ⟨fun p hfind => find_append hfind chunk, fun p hbefore hafter => ?_⟩
  have hends := find_of_append hbefore hafter
  rw [k.tag_length] at hends
  constructor <;> rintro rfl
  · simpa [positionsPerByte] using hends
  · exact hends

/-- Settles O40: the nibbles of the bytes from index `p` on are those from nibble index `2p` on. -/
theorem evenNibbleIsByte : Obligations.EvenNibbleIsByte := by
  intro bytes tag p len
  have hslice (n : Nat) : ((nibbles bytes).drop (2 * p)).take (2 * n) = nibbles ((bytes.drop p).take n) := by
    rw [nibbles_take, nibbles_drop]
  refine ⟨?_, ?_, ?_⟩
  · rw [hslice, nibbles_injective.eq_iff]
  · rw [Bool.eq_iff_iff, complete_iff, complete_iff]
    simp only [positionsPerByte]
    omega
  · exact (congrArg bytesOfNibbles (hslice len)).trans (bytesOfNibbles_nibbles _)

/-! ### The scan in priority order -/

/-- A kind that occurs, while none before it does, is selected from a list in row order. -/
theorem selectAmong_of_first {grid : MatchGrid} {bytes : List Byte} {k : Kind} {pos : Nat}
    (hfind : find grid bytes k.tag = some pos)
    (hfirst : ∀ k' : Kind, k'.index < k.index → find grid bytes k'.tag = none) {kinds : List Kind}
    (hsorted : kinds.Pairwise (fun k k' => k.index < k'.index)) (hmem : k ∈ kinds) :
    selectAmong grid bytes kinds = some (k, pos) := by
  induction kinds with
  | nil => cases hmem
  | cons k' ks ih =>
    obtain ⟨hk', hks⟩ := List.pairwise_cons.1 hsorted
    rcases List.mem_cons.1 hmem with rfl | hlater
    · simp only [selectAmong, hfind]
    · simp only [selectAmong, hfirst k' (hk' k hlater), ih hks hlater]

/-- The scan's selection, by R105. -/
theorem selectKind_of_first {grid : MatchGrid} {bytes : List Byte} {k : Kind} {pos : Nat}
    (hfind : find grid bytes k.tag = some pos)
    (hfirst : ∀ k' : Kind, k'.index < k.index → find grid bytes k'.tag = none) :
    selectKind grid bytes = some (k, pos) :=
  selectAmong_of_first hfind hfirst Kind.priority_sorted k.mem_priority

theorem selectKind_eq_none_iff {grid : MatchGrid} {bytes : List Byte} :
    selectKind grid bytes = none ↔ ∀ k : Kind, find grid bytes k.tag = none := by
  rcases selectAmong_cases grid bytes Kind.priority with ⟨hselect, hnone⟩ | ⟨_, k, _, pos, -, hselect, hfind, -⟩
  · exact iff_of_true hselect fun k => hnone k k.mem_priority
  · exact iff_of_false (by simp [selectKind, hselect]) fun hnone => by simp [hnone k] at hfind

section
variable {grid : MatchGrid} {bytes : List Byte} {k : Kind} {pos : Nat}

theorem scan_of_selectKind (h : selectKind grid bytes = some (k, pos)) :
    scan grid bytes = resolveMatch grid bytes k pos := by
  simp only [scan, h]

theorem scan_eq_noMatch_iff : scan grid bytes = .noMatch ↔ selectKind grid bytes = none := by
  cases hselect : selectKind grid bytes with
  | none => simp [scan, hselect]
  | some selected =>
    obtain ⟨k, pos⟩ := selected
    rw [scan_of_selectKind hselect]
    rcases resolveMatch_cases grid bytes k pos with ⟨-, h⟩ | ⟨-, h⟩ <;> simp [h]

theorem scan_of_partial (hselect : selectKind grid bytes = some (k, pos))
    (hpart : complete grid bytes pos k.length = false) : scan grid bytes = .wait k pos := by
  simp [scan_of_selectKind hselect, resolveMatch, hpart]

theorem scan_of_complete (hselect : selectKind grid bytes = some (k, pos))
    (hfull : complete grid bytes pos k.length = true) :
    scan grid bytes = .full k pos (extract grid bytes pos k.length) := by
  simp [scan_of_selectKind hselect, resolveMatch, hfull]

end

/-- Settles O37: the scan resolves the kind that is selected, which is the first one that occurs. -/
theorem scanFollowsPriority : Obligations.ScanFollowsPriority := by
  intro grid bytes
  refine ⟨scan_eq_noMatch_iff.trans selectKind_eq_none_iff, fun k pos hfind hfirst => ?_⟩
  have hselect := selectKind_of_first hfind hfirst
  exact ⟨scan_of_complete hselect, scan_of_partial hselect⟩

/-! ### Partial frames -/

section
variable {grid : MatchGrid} {bytes : List Byte} {pos : Nat}

/-- Kind 0 goes before every other kind (R105). -/
theorem selectKind_ignoredHeater (hfind : find grid bytes Kind.ignoredHeater.tag = some pos) :
    selectKind grid bytes = some (.ignoredHeater, pos) :=
  selectKind_of_first hfind fun _ hlower => absurd hlower (Nat.not_lt_zero _)

/-- Kind 1 is selected where kind 0 does not occur (R105). -/
theorem selectKind_chStatus (hfind : find grid bytes Kind.chStatus.tag = some pos)
    (hnone : find grid bytes Kind.ignoredHeater.tag = none) : selectKind grid bytes = some (.chStatus, pos) :=
  selectKind_of_first hfind fun k hlower => by
    cases k with
    | ignoredHeater => exact hnone
    | _ => simp [Kind.index] at hlower

end

/-- Settles O41: kind 0 is selected if it occurs and kind 1 otherwise, and either frame is 31 bytes, 62 nibbles. -/
theorem partialFrameWaits : Obligations.PartialFrameWaits := by
  refine ⟨fun bytes p hfind hshort => ⟨fun hnone => ?_, fun q hq => ?_⟩,
    fun bytes p hfind hshort => ⟨fun hnone => ?_, fun q hq => ?_⟩⟩
  · exact scan_of_partial (selectKind_chStatus hfind hnone) (decide_eq_false hshort.not_ge)
  · have hselect := selectKind_ignoredHeater hq
    exact ⟨fun hpart => scan_of_partial hselect (decide_eq_false hpart.not_ge),
      fun hfull => scan_of_complete hselect (decide_eq_true hfull)⟩
  · exact scan_of_partial (selectKind_chStatus hfind hnone) (decide_eq_false hshort.not_ge)
  · have hselect := selectKind_ignoredHeater hq
    refine ⟨fun hpart => scan_of_partial hselect (decide_eq_false hpart.not_ge), fun hfull => ?_⟩
    have hcomplete : complete .nibble bytes q Kind.ignoredHeater.length = true := decide_eq_true hfull
    exact ⟨_, scan_of_complete hselect hcomplete, nibbles_extract hcomplete⟩

end Sys2Proof.Machine
end

section
/-! A PUSH by the outcome table of R114, and the rows it runs (spec/40_demux.md R100 to R103, R107 to R112; entries 7
and 8). -/

namespace Sys2Proof

/-- The five signature rows but row 0 are decoded (R70). -/
theorem Kind.action_eq_decode_iff {k : Kind} : k.action = .decode ↔ k ≠ .ignoredHeater := by
  cases k <;> decide

/-- Diagnostic text is a chunk that begins with `#HR` (R73, R102). -/
theorem diagPrefix_iff {chunk : List Byte} : diagPrefix chunk = true ↔ ∃ rest, chunk = diagTag ++ rest := by
  constructor
  · intro h
    have htake : chunk.take 3 = diagTag := by simpa [diagPrefix] using h
    exact ⟨chunk.drop 3, by rw [← htake, List.take_append_drop]⟩
  · rintro ⟨rest, rfl⟩
    simp [diagPrefix, diagTag]

end Sys2Proof

namespace Sys2Proof.Machine

/-! ### A frame that is checked -/

section
variable {s : State} {k : Kind} {frame : List Byte} (pos : Nat) (ovf diag : Bool)

/-- A frame that passes is delivered (R110, R112). -/
theorem checkFrame_of_ok (hok : (crcCheck s.cfg.crcTable frame k.length).ok = true) :
    s.checkFrame k pos ovf diag frame = { s with
      buf := []
      decoderOut := s.decoderOut ++ [⟨k, k.length, frame⟩]
      responses := s.responses ++ [⟨.frameOk, some k, ovf, diag, true, .none,
        (crcCheck s.cfg.crcTable frame k.length).val, 0, pos, frame⟩] } := by
  simp [checkFrame_eq_finish, State.finish, Effect.check, Response.blank, hok, crcCheck_ok_iff.1 hok]

/-- A whole frame that fails is discarded with MISMATCH (R110, R113). -/
theorem checkFrame_of_bad (hwhole : frame.length = k.length)
    (hbad : (crcCheck s.cfg.crcTable frame k.length).ok = false) :
    s.checkFrame k pos ovf diag frame = { s with
      buf := []
      responses := s.responses ++ [⟨.frameBad, some k, ovf, diag, false, .mismatch,
        (crcCheck s.cfg.crcTable frame k.length).val, 0, pos, frame⟩] } := by
  have hreason := crcCheck_of_whole_frame s.cfg.crcTable hwhole
  rw [hbad] at hreason
  simp [checkFrame_eq_finish, State.finish, Effect.check, Response.blank, hbad, hreason]

end

/-! ### The signature rows -/

theorem exec_instr (k : Kind) (pos : Nat) (ovf diag : Bool) (s : State) :
    exec (k.instr pos ovf diag) s = .next (s.serveMatch k pos ovf diag) :=
  (runSignature_eq_exec k pos ovf diag s).symm.trans (runSignature_eq k pos ovf diag s)

/-- Settles O46: the row of kind 0 is the service of kind 0, whose frame is 31 bytes and is not checked. -/
theorem ignoredHeaterRow : Obligations.IgnoredHeaterRow := by
  intro s pos ovf diag
  have hrow := exec_instr .ignoredHeater pos ovf diag s
  refine ⟨fun hpart => hrow.trans ?_, fun hfull => hrow.trans ?_⟩
  · rw [serveMatch_of_partial hpart]
    rfl
  · rw [serveMatch_of_ignored hfull rfl]
    rfl

/-- Settles O47: each of the four rows is the service of its kind, which checks a complete frame. -/
theorem decodedKindRows : Obligations.DecodedKindRows := by
  intro s pos ovf diag k len i c frame hrow hframe hc
  obtain ⟨rfl, rfl, haction⟩ : len = k.length ∧ i = k.instr pos ovf diag ∧ k.action = .decode := by
    rcases hrow with ⟨rfl, rfl, rfl⟩ | ⟨rfl, rfl, rfl⟩ | ⟨rfl, rfl, rfl⟩ | ⟨rfl, rfl, rfl⟩ <;> exact ⟨rfl, rfl, rfl⟩
  subst hframe hc
  rw [exec_instr]
  refine ⟨fun hpart => ?_, fun hfull hok => ?_, fun hfull hbad => ?_⟩
  · rw [serveMatch_of_partial hpart]
    rfl
  · rw [serveMatch_of_decoded hfull haction, checkFrame_of_ok pos ovf diag hok]
  · rw [serveMatch_of_decoded hfull haction, checkFrame_of_bad pos ovf diag (extract_length hfull) hbad]

/-! ### The outcome table -/

/-- The service of the selected kind is its row of the table (R114). -/
theorem serveMatch_eq_pushOutcome {s : State} {k : Kind} {pos : Nat}
    (hselect : selectKind s.cfg.matchGrid s.trim.buf = some (k, pos)) (diag : Bool) :
    s.trim.serveMatch k pos (overflows s.cfg.bufCap s.buf) diag = s.pushOutcome diag s.buf := by
  rw [State.trim_buf] at hselect
  rcases serveMatch_cases s.trim k pos (overflows s.cfg.bufCap s.buf) diag with
    ⟨hpart, hserve⟩ | ⟨hfull, haction, hserve⟩ | ⟨hfull, haction, hserve⟩ <;> rw [hserve]
  · simp only [State.pushOutcome, scan_of_partial hselect hpart]
    rfl
  · obtain rfl := action_eq_ignore_iff.1 haction
    simp only [State.pushOutcome, scan_of_complete hselect hfull, if_true]
    rfl
  · have hkind := Kind.action_eq_decode_iff.1 haction
    simp only [State.pushOutcome, scan_of_complete hselect hfull, if_neg hkind]
    split
    · next hok => exact checkFrame_of_ok pos _ diag hok
    · next hbad => exact checkFrame_of_bad pos _ diag (extract_length hfull) (Bool.eq_false_iff.2 hbad)

/-- The receive sequence completes by the table, over the buffer before the trim (R100, R114). -/
theorem trimAndScan_eq_pushOutcome (diag : Bool) (s : State) :
    trimAndScan diag s = .next (s.pushOutcome diag s.buf) := by
  cases hselect : selectKind s.cfg.matchGrid s.trim.buf with
  | none =>
    rw [trimAndScan_of_noMatch hselect]
    rw [State.trim_buf] at hselect
    simp only [State.pushOutcome, scan_eq_noMatch_iff.2 hselect]
    rfl
  | some selected => rw [trimAndScan_of_match hselect, serveMatch_eq_pushOutcome hselect]

/-- The buffer a legal PUSH trims and scans: with the chunk behind it, or without diagnostic text (R102). -/
theorem State.received_eq (s : State) (chunk : List Byte) :
    s.received chunk =
      { s with buf := if diagPrefix chunk && !s.cfg.diagAppend then s.buf else s.buf ++ chunk } := by
  unfold State.received
  split <;> rfl

/-- A PUSH that `CHUNK_MAX` admits, by the table (R100, R114). -/
theorem execPush_eq_pushOutcome {s : State} {chunk : List Byte} (hadmitted : chunk.length ≤ s.cfg.chunkMax) :
    execPush chunk s = .next (s.pushOutcome (diagPrefix chunk)
      (if diagPrefix chunk && !s.cfg.diagAppend then s.buf else s.buf ++ chunk)) := by
  rw [execPush_of_admitted hadmitted, trimAndScan_eq_pushOutcome, State.received_eq]
  rfl

/-- Settles O44, by the one equation of an admitted PUSH. -/
theorem pushFollowsOutcomeTable : Obligations.PushFollowsOutcomeTable := by
  intro s chunk hadmitted
  have hpush : exec (.push chunk) s = _ := execPush_eq_pushOutcome hadmitted
  refine ⟨fun hplain => ?_, fun hdiag happend => ?_, fun hdiag hskip => ?_⟩
  · simpa [hplain] using hpush
  · simpa [hdiag, happend] using hpush
  · simpa [hdiag, hskip] using hpush

/-! ### The row of diagnostic text -/

theorem diagPrefix_diagTag_append (rest : List Byte) : diagPrefix (diagTag ++ rest) = true :=
  diagPrefix_iff.2 ⟨rest, rfl⟩

theorem diagTag_append_length (rest : List Byte) : (diagTag ++ rest).length = rest.length + 3 := by
  simp [diagTag]

/-- Settles O45: the row is the PUSH of its whole chunk, and an admitted PUSH completes by the table. -/
theorem diagnosticPrefixRow : Obligations.DiagnosticPrefixRow := by
  refine ⟨fun chunk => diagPrefix_iff, fun s rest hadmitted => ?_, fun s rest hlong => ?_,
    fun s rest => execPush_diagTag_append rest s,
    fun s chunk hadmitted => (pushFollowsOutcomeTable s chunk hadmitted).1⟩
  · rw [← diagTag_append_length] at hadmitted
    have hrow : exec (.diagPrefixHr rest) s = _ :=
      (execPush_diagTag_append rest s).symm.trans (execPush_eq_pushOutcome hadmitted)
    rw [diagPrefix_diagTag_append] at hrow
    cases happend : s.cfg.diagAppend <;> simpa [happend, diagTag] using hrow
  · rw [← diagTag_append_length] at hlong
    exact (execPush_diagTag_append rest s).symm.trans (execPush_of_long hlong)

/-! ### The row a PUSH runs -/

/-- Settles O48: the scan selects the first kind that occurs in the trimmed buffer, and the receive sequence serves it
there, as the kind's row does. -/
theorem pushRunsSelectedRow : Obligations.PushRunsSelectedRow := by
  intro s chunk received kept diag k pos hadmitted hreceived hkept hfind hfirst
  obtain ⟨rfl, hbuf⟩ : diag = diagPrefix chunk ∧ s.received chunk = { s with buf := received } := by
    rw [State.received_eq]
    rcases hreceived with ⟨hplain, rfl, rfl⟩ | ⟨hdiag, happend, rfl, rfl⟩ | ⟨hdiag, hskip, rfl, rfl⟩
    · simp [hplain]
    · simp [hdiag, happend]
    · simp [hdiag, hskip]
  subst hkept
  have hselect := selectKind_of_first hfind hfirst
  calc exec (.push chunk) s
    _ = trimAndScan (diagPrefix chunk) (s.received chunk) := execPush_of_admitted hadmitted
    _ = trimAndScan (diagPrefix chunk) { s with buf := received } := by rw [hbuf]
    _ = .next ((State.trim { s with buf := received }).serveMatch k pos (overflows s.cfg.bufCap received)
          (diagPrefix chunk)) := trimAndScan_of_match hselect (diagPrefix chunk)
    _ = exec (k.instr pos (overflows s.cfg.bufCap received) (diagPrefix chunk))
          { s with buf := trimmed s.cfg.bufCap received } := (exec_instr k pos _ _ _).symm

end Sys2Proof.Machine
end

section
/-! What a PUSH consumes and delivers (spec/40_demux.md R108, R112; spec/70_reset_and_hazards.md R201), and what a
stream without a tag does (R111, R195, R198). -/

namespace Sys2Proof.Machine

/-! ### Effects of a PUSH -/

/-- The answer FRAME_OK, with the decoder port driven once: a decoded kind, its declared length and the frame of that
many bytes, tag first (R112). -/
def Effect.DeliversFrame (e : Effect) : Prop :=
  e.response.evt = .frameOk ∧ ∃ k : Kind, k ≠ .ignoredHeater ∧ e.response.kind = some k ∧
    e.response.frame.length = k.length ∧ e.response.frame.take 4 = k.tag ∧
    e.driven = [⟨k, k.length, e.response.frame⟩]

/-- Another answer, with the decoder port not driven (R112). -/
def Effect.DrivesNothing (e : Effect) : Prop := e.response.evt ≠ .frameOk ∧ e.driven = []

/-- The effects of a receive sequence whose scan saw the buffer `scanned`: it waits or matches nothing and keeps that
buffer, or it consumes one frame and leaves none; only a frame that passed its check is delivered. -/
inductive ScanEffect (scanned : List Byte) : Effect → Prop
  | kept {r : Response} : r.evt = .noMatch ∨ r.evt = .wait → r.bufLen = scanned.length →
      ScanEffect scanned ⟨scanned, r, []⟩
  | discarded {r : Response} : r.evt = .ignored ∨ r.evt = .frameBad → r.bufLen = 0 → ScanEffect scanned ⟨[], r, []⟩
  | delivered {r : Response} {d : DecoderOutput} : Effect.DeliversFrame ⟨[], r, [d]⟩ → r.bufLen = 0 →
      ScanEffect scanned ⟨[], r, [d]⟩

/-- A checked frame is delivered or discarded, by its check (R110, R112, R113). -/
theorem check_scanEffect {c : CrcResult} {k : Kind} {frame : List Byte} (hkind : k ≠ .ignoredHeater)
    (hlength : frame.length = k.length) (htag : frame.take 4 = k.tag) (scanned : List Byte) (pos : Nat)
    (ovf diag : Bool) : ScanEffect scanned (.check c k pos ovf diag frame) := by
  obtain ⟨ok, reason, val⟩ := c
  cases ok with
  | true => exact .delivered ⟨rfl, k, hkind, rfl, hlength, htag, rfl⟩ rfl
  | false => exact .discarded (.inr rfl) rfl

theorem reportNoMatch_scanEffect (s : State) (ovf diag : Bool) :
    ∃ e, ScanEffect s.buf e ∧ s.reportNoMatch ovf diag = s.finish e :=
  ⟨⟨s.buf, { Response.blank .noMatch s.buf.length with ovf := ovf, diag := diag }, []⟩, .kept (.inl rfl) rfl,
    s.respond_eq_finish _⟩

theorem serveMatch_scanEffect {s : State} {k : Kind} {pos : Nat}
    (hselect : selectKind s.cfg.matchGrid s.buf = some (k, pos)) (ovf diag : Bool) :
    ∃ e, ScanEffect s.buf e ∧ s.serveMatch k pos ovf diag = s.finish e := by
  rcases serveMatch_cases s k pos ovf diag with ⟨-, hserve⟩ | ⟨-, -, hserve⟩ | ⟨hfull, haction, hserve⟩ <;> rw [hserve]
  · exact ⟨_, .kept (.inr rfl) rfl, awaitFrame_eq_finish s k pos ovf diag⟩
  · exact ⟨_, .discarded (.inl rfl) rfl, ignoreFrame_eq_finish s k pos ovf diag _⟩
  · obtain ⟨hlength, htag, -⟩ := extractedFrameIsWhole _ _ _ _ _ (scan_of_complete hselect hfull)
    exact ⟨_, check_scanEffect (Kind.action_eq_decode_iff.1 haction) hlength htag s.buf pos ovf diag,
      checkFrame_eq_finish s k pos ovf diag _⟩

theorem trimAndScan_scanEffect (diag : Bool) (s : State) :
    ∃ e, ScanEffect s.trim.buf e ∧ trimAndScan diag s = .next (s.finish e) := by
  rcases trimAndScan_cases diag s with ⟨-, hrun⟩ | ⟨k, pos, hselect, hrun⟩ <;> rw [hrun]
  · obtain ⟨e, he, hreport⟩ := reportNoMatch_scanEffect s.trim (overflows s.cfg.bufCap s.buf) diag
    exact ⟨e, he, by rw [hreport, State.finish_trim]⟩
  · obtain ⟨e, he, hserve⟩ := serveMatch_scanEffect (s := s.trim) hselect (overflows s.cfg.bufCap s.buf) diag
    exact ⟨e, he, by rw [hserve, State.finish_trim]⟩

/-- An admitted PUSH has the effect of its one scan, over the buffer it received (R100, R103). -/
theorem execPush_scanEffect {s : State} {chunk : List Byte} (hadmitted : chunk.length ≤ s.cfg.chunkMax) :
    ∃ e, ScanEffect (s.received chunk).trim.buf e ∧ execPush chunk s = .next (s.finish e) := by
  obtain ⟨e, he, hrun⟩ := trimAndScan_scanEffect (diagPrefix chunk) (s.received chunk)
  exact ⟨e, he, by rw [execPush_of_admitted hadmitted, hrun, State.finish_received]⟩

/-! ### The decoder port -/

theorem ScanEffect.drivesNothing_or_delivers {scanned : List Byte} {e : Effect} (h : ScanEffect scanned e) :
    e.DrivesNothing ∨ e.DeliversFrame := by
  cases h with
  | kept hevt => exact .inl ⟨by rcases hevt with h | h <;> simp [h], rfl⟩
  | discarded hevt => exact .inl ⟨by rcases hevt with h | h <;> simp [h], rfl⟩
  | delivered hdelivers => exact .inr hdelivers

/-- What a command can do to the decoder port (R112). -/
theorem exec_drives {i : Instr} (hcommand : i.isCommand = true) (s : State) :
    ∃ e : Effect, exec i s = .next (s.finish e) ∧
      (e.DrivesNothing ∨ (∃ chunk, i = .push chunk) ∧ e.DeliversFrame) := by
  cases i with
  | reset => exact ⟨_, congrArg _ (s.clear.respond_eq_finish _), .inl ⟨nofun, rfl⟩⟩
  | flush => exact ⟨_, congrArg _ (s.clear.respond_eq_finish _), .inl ⟨nofun, rfl⟩⟩
  | crcq len payload => exact ⟨_, congrArg _ (s.respond_eq_finish _), .inl ⟨nofun, rfl⟩⟩
  | push chunk =>
    rcases lt_or_ge s.cfg.chunkMax chunk.length with hlong | hadmitted
    · exact ⟨_, (execPush_of_long hlong).trans (congrArg _ (s.respond_eq_finish _)), .inl ⟨nofun, rfl⟩⟩
    · obtain ⟨e, he, hrun⟩ := execPush_scanEffect hadmitted
      exact ⟨e, hrun, he.drivesNothing_or_delivers.imp_right fun hdelivers => ⟨⟨chunk, rfl⟩, hdelivers⟩⟩
  | _ => simp [Instr.isCommand] at hcommand

/-- Settles O49: a command drives nothing and is not answered FRAME_OK, or it is a PUSH that delivers its frame. -/
theorem decoderPortOnlyOnFrameOk : Obligations.DecoderPortOnlyOnFrameOk := by
  intro i s t hcommand hexec
  obtain ⟨e, hrun, hdrives⟩ := exec_drives hcommand s
  cases hrun.symm.trans hexec
  refine ⟨e.response, rfl, ?_⟩
  rw [State.finish_decoderOut]
  rcases hdrives with ⟨hevt, hdriven⟩ | ⟨hpush, hevt, k, hkind, hresponse, hlength, htag, hdriven⟩ <;> rw [hdriven]
  · exact ⟨fun _ => List.append_nil _, fun hok => absurd hok hevt⟩
  · exact ⟨fun hother => absurd hevt hother, fun _ => ⟨hpush, k, hkind, hresponse, hlength, htag, rfl⟩⟩

/-! ### One frame a PUSH -/

/-- The buffer the scan of an admitted PUSH sees (R47, R102). -/
theorem received_trim_buf (s : State) (chunk : List Byte) :
    (s.received chunk).trim.buf = trimmed s.cfg.bufCap (s.buf ++ chunk) ∨
      diagPrefix chunk = true ∧ s.cfg.diagAppend = false ∧
        (s.received chunk).trim.buf = trimmed s.cfg.bufCap s.buf := by
  rw [State.trim_buf, State.received_eq]
  cases hdiag : diagPrefix chunk with
  | false => exact .inl rfl
  | true =>
    cases happend : s.cfg.diagAppend with
    | true => exact .inl rfl
    | false => exact .inr ⟨rfl, rfl, rfl⟩

/-- Settles O50: an ILLEGAL PUSH consumes nothing and is neither event; an admitted one has the effect of its one
scan. -/
theorem oneFramePerPush : Obligations.OneFramePerPush := by
  intro s t chunk hexec
  rcases lt_or_ge s.cfg.chunkMax chunk.length with hlong | hadmitted
  · cases (execPush_of_long hlong).symm.trans hexec
    exact ⟨_, rfl, Nat.le_succ _, by simp [Response.blank], by simp [Response.blank]⟩
  · obtain ⟨e, he, hrun⟩ := execPush_scanEffect hadmitted
    cases hrun.symm.trans hexec
    cases he with
    | @kept r hevt hlen =>
      refine ⟨r, rfl, by simp, ?_, fun _ => ⟨List.append_nil _, hlen, received_trim_buf s chunk⟩⟩
      rcases hevt with h | h <;> simp [h]
    | @discarded r hevt hlen =>
      refine ⟨r, rfl, by simp, fun _ => ⟨rfl, hlen⟩, ?_⟩
      rcases hevt with h | h <;> simp [h]
    | @delivered r d hdelivers hlen =>
      obtain ⟨hevt : r.evt = .frameOk, -⟩ := hdelivers
      exact ⟨r, rfl, by simp, fun _ => ⟨rfl, hlen⟩, by simp [hevt]⟩

/-! ### A stream without a tag -/

/-- A tag that does not occur in a buffer does not occur in its front part. -/
theorem find_eq_none_of_append {grid : MatchGrid} {bytes tail tag : List Byte}
    (h : find grid (bytes ++ tail) tag = none) : find grid bytes tag = none := by
  cases hfind : find grid bytes tag with
  | none => rfl
  | some p => cases (find_append hfind tail).symm.trans h

/-- A PUSH after which no tag occurs keeps every byte and answers NOMATCH (R111). -/
theorem execPush_of_tagless {s : State} {chunk : List Byte} (hcap : s.cfg.bufCap = none)
    (hadmitted : chunk.length ≤ s.cfg.chunkMax) (hplain : diagPrefix chunk = false)
    (hnone : ∀ k : Kind, find s.cfg.matchGrid (s.buf ++ chunk) k.tag = none) :
    execPush chunk s = .next ((s.append chunk).reportNoMatch false false) := by
  have hreceived : s.received chunk = s.append chunk := by simp [State.received, hplain]
  have htrim : (s.append chunk).trim = s.append chunk := trim_of_unbounded hcap
  have hovf : overflows s.cfg.bufCap (s.buf ++ chunk) = false := by rw [hcap]; rfl
  rw [execPush_of_admitted hadmitted, hplain, hreceived,
    trimAndScan_of_noMatch (by rw [htrim]; exact selectKind_eq_none_iff.2 hnone), htrim]
  simp only [State.append_cfg, State.append_buf, hovf]

/-- A run over chunks that put no tag into the unbounded buffer, from any buffer. -/
theorem execAll_of_tagless {chunks : List (List Byte)} {s : State} (hcap : s.cfg.bufCap = none)
    (hadmitted : ∀ c ∈ chunks, c.length ≤ s.cfg.chunkMax) (hplain : ∀ c ∈ chunks, diagPrefix c = false)
    (hnone : ∀ k : Kind, find s.cfg.matchGrid (s.buf ++ chunks.flatten) k.tag = none) :
    ∃ t rs, execAll (chunks.map .push) s = .next t ∧ t.buf = s.buf ++ chunks.flatten ∧
      t.decoderOut = s.decoderOut ∧ t.responses = s.responses ++ rs ∧ rs.length = chunks.length ∧
      ∀ r ∈ rs, r.evt = .noMatch := by
  induction chunks generalizing s with
  | nil => exact ⟨s, [], rfl, by simp, rfl, by simp, rfl, by simp⟩
  | cons c cs ih =>
    obtain ⟨hc, hcs⟩ := List.forall_mem_cons.1 hadmitted
    obtain ⟨hpc, hpcs⟩ := List.forall_mem_cons.1 hplain
    simp only [List.flatten_cons, ← List.append_assoc] at hnone ⊢
    have hpush : exec (.push c) s = .next ((s.append c).reportNoMatch false false) :=
      execPush_of_tagless hcap hc hpc fun k => find_eq_none_of_append (hnone k)
    obtain ⟨t, rs, hrun, hbuf, hdecoder, hresponses, hlength, hevts⟩ :=
      ih (s := (s.append c).reportNoMatch false false) hcap hcs hpcs hnone
    refine ⟨t, _ :: rs, (execAll_cons_of_exec hpush).trans hrun, hbuf, hdecoder,
      hresponses.trans (List.append_assoc _ _ _), by simp [hlength], List.forall_mem_cons.2 ⟨rfl, hevts⟩⟩

/-- Settles O53: from power-on the buffer after each chunk is a front part of the stream, in which no tag occurs. -/
theorem taglessStreamIsKeptUnderEveryCut : Obligations.TaglessStreamIsKeptUnderEveryCut := by
  intro cfg stream chunks hcap ⟨hstream, hadmitted⟩ hplain hnone
  subst hstream
  obtain ⟨t, rs, hrun, hbuf, hdecoder, hresponses, hlength, hevts⟩ :=
    execAll_of_tagless (s := State.powerOn cfg) hcap hadmitted hplain hnone
  obtain rfl : t.responses = rs := hresponses
  exact ⟨t, hrun, hbuf, hdecoder, hlength, hevts⟩

end Sys2Proof.Machine
end

section
/-! What the CRC check reads and what it detects (spec/41_crc.md R132 to R142). The check reads `F[0]` to `F[L-2]` and
no more (`crcCheck_take`); it passes exactly when `F[L-2]` is the accumulator over the bytes before it
(`crcCheck_ok_iff_crc_byte`); and under a permutation table two accumulators that differ once differ after every later
byte (`foldl_crcUpdate_injective`). -/

namespace Sys2Proof.Machine

/-! ### The result of the check -/

section
variable {table : Vector Byte 256} {bytes : List Byte} {len : Nat}

theorem crcCheck_of_short (hshort : len < 3) : crcCheck table bytes len = ⟨false, .short, 0⟩ := if_pos hshort

theorem crcCheck_of_range (hlen : 3 ≤ len) (hrange : bytes.length < len - 1) :
    crcCheck table bytes len = ⟨false, .range, 0⟩ := by
  simp [crcCheck, Nat.not_lt.2 hlen, hrange]

/-- The check of a payload that holds its CRC byte compares that byte with the accumulator (R137, R139). -/
theorem crcCheck_of_crc_byte {crc : Byte} (hlen : 3 ≤ len) (hcrc : bytes[len - 2]? = some crc) :
    crcCheck table bytes len =
      if crc = crcAccumulate table (bytes.take (len - 2)) then ⟨true, .none, crcAccumulate table (bytes.take (len - 2))⟩
      else ⟨false, .mismatch, crcAccumulate table (bytes.take (len - 2))⟩ := by
  obtain ⟨hread, -⟩ := List.getElem?_eq_some_iff.1 hcrc
  have hrange : ¬ bytes.length < len - 1 := by omega
  simp [crcCheck, Nat.not_lt.2 hlen, hrange, hcrc]

theorem crcCheck_ok_iff_crc_byte :
    (crcCheck table bytes len).ok = true ↔
      3 ≤ len ∧ bytes[len - 2]? = some (crcAccumulate table (bytes.take (len - 2))) := by
  rcases crcCheck_cases table bytes len with ⟨hshort, h⟩ | ⟨-, hrange, h⟩ | ⟨hlen, -, hcrc, h⟩ | ⟨-, -, hcrc, h⟩ <;>
    rw [h]
  · simp [hshort]
  · have hmissing : bytes[len - 2]? = none := List.getElem?_eq_none (by omega)
    simp [hmissing]
  · simp [hlen, hcrc]
  · simp [hcrc]

/-- The check reads `F[0]` to `F[L-2]` only (R136, R137). -/
theorem crcCheck_take (table : Vector Byte 256) (bytes : List Byte) (len : Nat) :
    crcCheck table (bytes.take (len - 1)) len = crcCheck table bytes len := by
  by_cases hshort : len < 3
  · rw [crcCheck_of_short hshort, crcCheck_of_short hshort]
  · have hlength : (bytes.take (len - 1)).length < len - 1 ↔ bytes.length < len - 1 := by
      rw [List.length_take]; omega
    have hcovered : (bytes.take (len - 1)).take (len - 2) = bytes.take (len - 2) := by
      rw [List.take_take, Nat.min_eq_left (by omega)]
    have hcrc : (bytes.take (len - 1))[len - 2]? = bytes[len - 2]? := List.getElem?_take_of_lt (by omega)
    simp only [crcCheck, hlength, hcovered, hcrc]

end

theorem crcCheck_congr {bytes bytes' : List Byte} {len : Nat} (table : Vector Byte 256)
    (h : bytes.take (len - 1) = bytes'.take (len - 1)) : crcCheck table bytes len = crcCheck table bytes' len := by
  rw [← crcCheck_take table bytes, h, crcCheck_take]

/-! ### The accumulator -/

/-- One more covered byte is one more update (R136). -/
theorem crcAccumulate_take_succ (table : Vector Byte 256) {bytes : List Byte} {i : Nat} (hi : i < bytes.length) :
    crcAccumulate table (bytes.take (i + 1)) =
      crcLookup table (crcAccumulate table (bytes.take i)) ^^^ bytes[i] := by
  rw [crcAccumulate, List.take_succ_eq_append_getElem hi, List.foldl_append]
  rfl

/-- A sequence that starts at 0 and follows the update of R136 for `n` bytes is the accumulator over them. -/
theorem eq_crcAccumulate_take {table : Vector Byte 256} {bytes : List Byte} {acc : Nat → Byte} (hzero : acc 0 = 0)
    {n : Nat} (hn : n ≤ bytes.length)
    (hstep : ∀ i < n, acc (i + 1) = crcLookup table (acc i) ^^^ bytes.getD i 0) :
    acc n = crcAccumulate table (bytes.take n) := by
  induction n with
  | zero => exact hzero
  | succ n ih =>
    rw [hstep n n.lt_succ_self, ih (by omega) fun i hi => hstep i (by omega), crcAccumulate_take_succ table hn,
      List.getD_eq_getElem _ _ hn]

/-! ### A changed byte -/

section
variable {table : Vector Byte 256}

theorem crcUpdate_right_injective (acc : Byte) : Function.Injective (crcUpdate table acc) :=
  fun _ _ h => (BitVec.xor_right_inj _).1 h

theorem crcUpdate_left_injective (htable : tableInjective table) (b : Byte) :
    Function.Injective fun acc => crcUpdate table acc b :=
  fun acc acc' h => htable acc acc' ((BitVec.xor_left_inj _).1 h)

/-- A permutation table keeps two accumulators different through every later byte (R142 item 3). -/
theorem foldl_crcUpdate_injective (htable : tableInjective table) (bytes : List Byte) :
    Function.Injective fun acc => bytes.foldl (crcUpdate table) acc := by
  induction bytes with
  | nil => exact Function.injective_id
  | cons b bytes ih => exact ih.comp (crcUpdate_left_injective htable b)

theorem foldl_crcUpdate_set_ne (htable : tableInjective table) {covered : List Byte} {i : Nat} {b : Byte}
    (hi : i < covered.length) (hchanged : covered[i]? ≠ some b) (acc : Byte) :
    (covered.set i b).foldl (crcUpdate table) acc ≠ covered.foldl (crcUpdate table) acc := by
  induction covered generalizing i acc with
  | nil => exact absurd hi (Nat.not_lt_zero i)
  | cons x xs ih =>
    cases i with
    | zero =>
      have hbyte : b ≠ x := fun h => hchanged (by rw [h]; rfl)
      exact fun h => hbyte (crcUpdate_right_injective acc (foldl_crcUpdate_injective htable xs h))
    | succ i => exact ih (Nat.lt_of_succ_lt_succ hi) hchanged (crcUpdate table acc x)

/-- Under a permutation table, changing one covered byte of a frame that passes makes it fail (R142 item 3). -/
theorem crcCheck_set_of_covered (htable : tableInjective table) {bytes : List Byte} {len i : Nat} {b : Byte}
    (hok : (crcCheck table bytes len).ok = true) (hcovered : i + 3 ≤ len) (hchanged : bytes[i]? ≠ some b) :
    (crcCheck table (bytes.set i b) len).ok = false := by
  obtain ⟨hlen, hcrc⟩ := crcCheck_ok_iff_crc_byte.1 hok
  obtain ⟨hread, -⟩ := List.getElem?_eq_some_iff.1 hcrc
  have hdiffer : crcAccumulate table ((bytes.take (len - 2)).set i b) ≠ crcAccumulate table (bytes.take (len - 2)) :=
    foldl_crcUpdate_set_ne htable (by rw [List.length_take]; omega)
      (by rwa [List.getElem?_take_of_lt (by omega)]) 0
  rw [Bool.eq_false_iff, ne_eq, crcCheck_ok_iff_crc_byte, List.getElem?_set_ne (by omega), hcrc, List.take_set]
  exact fun h => hdiffer (Option.some.inj h.2).symm

end

/-- Settles O26: each clause is one of the results of the check, and the sequence is the accumulator at each index. -/
theorem crcCheckMeaning : Obligations.CrcCheckMeaning := by
  intro table bytes len
  refine ⟨crcCheck_of_short, crcCheck_of_range, fun hlen hlength acc hzero hstep => ?_⟩
  have hread : len - 2 < bytes.length := by omega
  have hacc : acc (len - 2) = crcAccumulate table (bytes.take (len - 2)) :=
    eq_crcAccumulate_take hzero (by omega) fun i hi => hstep i (by omega)
  have hcheck := crcCheck_of_crc_byte (table := table) hlen (List.getElem?_eq_getElem hread)
  rw [← hacc, ← List.getD_eq_getElem bytes 0 hread] at hcheck
  exact ⟨fun hequal => hcheck.trans (if_pos hequal), fun hdiffer => hcheck.trans (if_neg hdiffer)⟩

/-- Settles O27: both payloads agree in the bytes the check reads, and with `L - 1` bytes the CRC byte is among them. -/
theorem crcIgnoresExtraBytes : Obligations.CrcIgnoresExtraBytes := by
  refine ⟨fun table bytes len _ => crcCheck_congr table ?_, fun table bytes tail len hlen hlength => ⟨?_, ?_⟩⟩
  · rw [List.take_take, Nat.min_eq_left (by omega)]
  · exact crcCheck_congr table (by rw [← hlength, List.take_left, List.take_length])
  · have hread : len - 2 < bytes.length := by omega
    rw [crcCheck_of_crc_byte hlen (List.getElem?_eq_getElem hread)]
    split <;> nofun

/-- Settles O28: index `L - 1` is behind the bytes the check reads. -/
theorem crcTrailerIsNotRead : Obligations.CrcTrailerIsNotRead := by
  intro table bytes len b
  exact crcCheck_congr table (List.take_set_of_le (Nat.le_refl _))

/-- Settles O29: the changed byte is not covered, so the accumulator is the one that equalled the old byte. -/
theorem crcByteChangeIsMismatch : Obligations.CrcByteChangeIsMismatch := by
  intro table bytes len b hok hchanged
  obtain ⟨hlen, hcrc⟩ := crcCheck_ok_iff_crc_byte.1 hok
  obtain ⟨hread, -⟩ := List.getElem?_eq_some_iff.1 hcrc
  have hdiffer : b ≠ crcAccumulate table (bytes.take (len - 2)) := fun h => hchanged (by rw [hcrc, h])
  rw [crcCheck_of_crc_byte hlen hcrc, if_pos rfl, crcCheck_of_crc_byte hlen (List.getElem?_set_self hread),
    List.take_set_of_le (Nat.le_refl _), if_neg hdiffer]

/-- Settles O30: the accumulators differ after the changed byte and stay different. -/
theorem crcDetectsOneByteError : Obligations.CrcDetectsOneByteError := by
  intro table bytes len i b htable hok hcovered hchanged
  exact crcCheck_set_of_covered htable hok hcovered hchanged

/-! ### The constraint on the table -/

/-- A frame of four bytes whose accumulator is `a` after its first byte passes exactly with the CRC byte `T[a]`. -/
theorem crcCheck_reaching_ok_iff {table : Vector Byte 256} {a crc : Byte} :
    (crcCheck table [a ^^^ crcLookup table 0, 0, crc] 4).ok = true ↔ crc = crcLookup table a := by
  have hfirst : crcUpdate table 0 (a ^^^ crcLookup table 0) = a := by
    rw [crcUpdate, BitVec.xor_comm, BitVec.xor_assoc, BitVec.xor_self, BitVec.xor_zero]
  have hacc : crcAccumulate table [a ^^^ crcLookup table 0, 0] = crcLookup table a := by
    simp only [crcAccumulate, List.foldl_cons, List.foldl_nil, hfirst]
    exact BitVec.xor_zero
  calc (crcCheck table [a ^^^ crcLookup table 0, 0, crc] 4).ok = true
    _ ↔ 3 ≤ 4 ∧ some crc = some (crcAccumulate table [a ^^^ crcLookup table 0, 0]) := crcCheck_ok_iff_crc_byte
    _ ↔ crc = crcLookup table a := by rw [hacc]; simp

/-- A table that merges `a` with `a` changed in bit `j` hides that bit of the first byte of a frame that reaches `a`. -/
theorem not_detectsBitErrors_of_merged {table : Vector Byte 256} {a : Byte} {j : Nat} (hj : j < 8)
    (hmerged : crcLookup table a = crcLookup table (a ^^^ BitVec.ofNat 8 (2 ^ j))) : ¬ detectsBitErrors table := by
  intro hdetects
  have hfails := hdetects [a ^^^ crcLookup table 0, 0, crcLookup table a] 4 0 j (by decide) hj
    (crcCheck_reaching_ok_iff.2 rfl)
  have hflipped : [a ^^^ crcLookup table 0, 0, crcLookup table a].modify 0 (fun b => b ^^^ BitVec.ofNat 8 (2 ^ j)) =
      [(a ^^^ BitVec.ofNat 8 (2 ^ j)) ^^^ crcLookup table 0, 0, crcLookup table a] := by
    rw [List.modify_zero_cons, BitVec.xor_assoc, BitVec.xor_comm (crcLookup table 0), BitVec.xor_assoc]
  rw [hflipped, crcCheck_reaching_ok_iff.2 hmerged] at hfails
  cases hfails

theorem oneBit_ne_zero : ∀ j < 8, BitVec.ofNat 8 (2 ^ j) ≠ 0 := by decide

/-- A permutation table detects every single-bit error, as a change of one covered byte. -/
theorem detectsBitErrors_of_injective {table : Vector Byte 256} (htable : tableInjective table) :
    detectsBitErrors table := by
  intro bytes len i j hcovered hj hok
  obtain ⟨-, hcrc⟩ := crcCheck_ok_iff_crc_byte.1 hok
  obtain ⟨hread, -⟩ := List.getElem?_eq_some_iff.1 hcrc
  have hi : i < bytes.length := by omega
  rw [List.modify_eq_set_getElem?, List.getElem?_eq_getElem hi]
  refine crcCheck_set_of_covered htable hok hcovered fun hsame => oneBit_ne_zero j hj ?_
  rw [List.getElem?_eq_getElem hi, Option.some.injEq] at hsame
  exact (BitVec.xor_right_inj bytes[i]).1 (hsame.symm.trans BitVec.xor_zero.symm)

/-- The entries of the candidate table (R131, ASSUMED there; entry 2). -/
theorem crcLookup_candidate (a : Byte) :
    crcLookup candidateCrcTable a = BitVec.ofNat 8 (2 * a.toNat) ^^^ (if a.toNat < 128 then 0x00 else 0x19) := by
  simp [crcLookup, candidateCrcTable]

/-- The lower half of the candidate table holds the even entries and the upper half the odd ones (R132). -/
theorem candidate_even_iff (a : Byte) :
    a.toNat < 128 ↔ (crcLookup candidateCrcTable a).toNat % 2 = 0 := by
  rw [crcLookup_candidate, BitVec.toNat_xor, Nat.xor_mod_two_eq, BitVec.toNat_ofNat]
  by_cases hlow : a.toNat < 128
  · rw [if_pos hlow, show (0x00 : Byte).toNat = 0 from rfl]
    omega
  · rw [if_neg hlow, show (0x19 : Byte).toNat = 25 from rfl]
    omega

/-- Equal entries of the candidate table stand in the same half, where the index is half the entry (R132). -/
theorem tableInjective_candidate : tableInjective candidateCrcTable := by
  intro a b hequal
  have hhalf : a.toNat < 128 ↔ b.toNat < 128 := by rw [candidate_even_iff, candidate_even_iff, hequal]
  have ha := a.isLt
  have hb := b.isLt
  rw [crcLookup_candidate, crcLookup_candidate] at hequal
  simp only [hhalf, BitVec.xor_left_inj] at hequal
  have hdouble : 2 * a.toNat % 256 = 2 * b.toNat % 256 := by simpa using congrArg BitVec.toNat hequal
  exact BitVec.eq_of_toNat_eq (by omega)

/-- Settles O31: a frame that reaches the merged index, the detection of one changed byte, and the two facts about the
candidate table. -/
theorem crcTableConstraint : Obligations.CrcTableConstraint :=
  ⟨fun _ _ _ => not_detectsBitErrors_of_merged, fun _ => detectsBitErrors_of_injective, tableInjective_candidate,
    candidate_even_iff⟩

/-! ### CRCQ -/

/-- Settles O35: the dispatch of CRCQ, whose answer is appended and whose other fields are the blank ones. -/
theorem crcqResult : Obligations.CrcqResult := by
  intro s len payload c hcheck
  calc exec (.crcq len payload) s
    _ = .next (s.respond { Response.blank .crcResult s.buf.length with
          crcOk := (crcCheck s.cfg.crcTable payload len).ok
          crcReason := (crcCheck s.cfg.crcTable payload len).reason
          crcVal := (crcCheck s.cfg.crcTable payload len).val }) := rfl
    _ = .next { s with
          responses := s.responses ++
            [⟨.crcResult, none, false, false, c.ok, c.reason, c.val, s.buf.length, 0, []⟩] } := by rw [hcheck]; rfl

end Sys2Proof.Machine
end

section
/-! The control commands RESET and FLUSH (spec/42_control.md R150, R151): one meaning in every state, one word each,
and ILLEGAL for a word with a non-zero ARG or N. -/

namespace Sys2Proof.Machine

/-- The state after a RESET or a FLUSH: an empty buffer, and the ACK field by field (R150, R151). -/
theorem clear_acknowledge_eq (s : State) :
    s.clear.acknowledge = { s with
      buf := []
      responses := s.responses ++ [⟨.ack, none, false, false, false, .none, 0, 0, 0, []⟩] } := rfl

theorem exec_reset (s : State) : exec .reset s = .next s.clear.acknowledge := rfl

theorem exec_flush (s : State) : exec .flush s = .next s.clear.acknowledge := rfl

theorem encode_reset : encode .reset = [0x10, 0x00, 0x00, 0x00] := by decide

theorem encode_flush : encode .flush = [0x30, 0x00, 0x00, 0x00] := by decide

/-- A RESET or FLUSH word is legal exactly when its ARG and N are zero (R69). -/
theorem legalWord_control_iff {cfg : Config} {w : Word} (hop : opField w = 1 ∨ opField w = 3) :
    legalWord cfg w ↔ argField w = 0 ∧ countField w = 0 := by
  rcases hop with hop | hop <;> simp [legalWord, hop]

/-- A RESET or FLUSH word with a non-zero ARG or N is answered ILLEGAL, its data bytes taken (R150, R151, R171). -/
theorem step_of_illegal_control {s : State} {w : Word} {data rest : List Byte} (hpresents : s.presents w data rest)
    (hop : opField w = 1 ∨ opField w = 3) (hnonzero : argField w ≠ 0 ∨ countField w ≠ 0) :
    step s = .next { s with cmdIn := rest }.illegalAnswer := by
  apply (illegalExactlyWhenNotLegal s w data rest hpresents).2
  rw [legalWord_control_iff hop]
  rintro ⟨harg, hcount⟩
  exact hnonzero.elim (· harg) (· hcount)

/-- Settles O21: RESET's meaning, its word read back from its encoding, and its illegal words. -/
theorem resetCommand : Obligations.ResetCommand := by
  refine ⟨fun s => ?effect, fun rest => ?word, fun s w data rest hpresents hop hnonzero => ?illegal⟩
  case effect => rw [exec_reset, clear_acknowledge_eq]
  case word => rw [← encode_reset]; exact decode_command_encode rfl rfl rest
  case illegal => exact step_of_illegal_control hpresents (.inl hop) hnonzero

/-- Settles O22: FLUSH's meaning, which is RESET's, its word read back from its encoding, and its illegal words. -/
theorem flushCommand : Obligations.FlushCommand := by
  refine ⟨fun s => ?effect, fun rest => ?word, fun s w data rest hpresents hop hnonzero => ?illegal,
    fun s => ?asReset⟩
  case effect => rw [exec_flush, clear_acknowledge_eq]
  case word => rw [← encode_flush]; exact decode_command_encode rfl rfl rest
  case illegal => exact step_of_illegal_control hpresents (.inr hop) hnonzero
  case asReset => rw [exec_flush, exec_reset]

end Sys2Proof.Machine
end

section
/-! No step stops the machine, and what an illegal command leaves (spec/60_exceptions.md R170, R171). -/

namespace Sys2Proof.Machine

/-- Settles O14: of the three things a step does, waiting changes nothing, and the ILLEGAL answer and the run of a
command append one response each. -/
theorem stepNeverStops : Obligations.StepNeverStops := by
  intro s
  rcases step_cases s with ⟨hincomplete, hwait⟩ | ⟨why, rest, -, hillegal⟩ | ⟨i, rest, -, hrun⟩
  · exact ⟨s, hwait, .inl ⟨hincomplete, rfl⟩⟩
  · exact ⟨_, hillegal, .inr ⟨_, rfl⟩⟩
  · obtain ⟨t, r, hexec, hresponses, -, -⟩ := everyInstructionAnswersOnce i (s.withCmdIn rest)
    exact ⟨t, hrun.trans hexec, .inr ⟨r, hresponses⟩⟩

/-- The status word of the ILLEGAL response: KIND 7 above EVT 15, whatever its BUF_LEN (R65, R66, R68, R171). -/
theorem statusWord_blank_illegal (len : Nat) : statusWord (Response.blank .illegal len) = 0x0000007F :=
  BitVec.eq_of_toNat_eq <| calc (statusWord (Response.blank .illegal len)).toNat
    _ = (kindCode none).toNat * 2 ^ 4 + Event.illegal.code.toNat := by
      simp [statusWord_toNat, Response.blank, CrcReason.code]
    _ = 0x7F := by decide

/-- Settles O19: a whole command whose word is not legal is answered `State.illegalAnswer` behind its data bytes, which
writes nothing but the response. -/
theorem illegalCommandAnswer : Obligations.IllegalCommandAnswer := by
  intro s w data rest hpresents hillegal
  have hstep : step s = .next { s with cmdIn := rest }.illegalAnswer :=
    (illegalExactlyWhenNotLegal s w data rest hpresents).2 hillegal
  exact ⟨_, _, hstep, rfl, rfl, rfl, rfl, rfl, rfl, statusWord_blank_illegal s.buf.length⟩

end Sys2Proof.Machine
end

section
/-! Reset (spec/70_reset_and_hazards.md R190, R191): the state after power-on and RESET, and a run after a RESET beside
the run from power-on. -/

namespace Sys2Proof.Machine

/-- Settles O23: power-on holds no bytes, and RESET clears the buffer and writes no parameter. -/
theorem resetState : Obligations.ResetState := by
  refine ⟨fun cfg => ⟨State.powerOn_buf cfg, State.powerOn_cfg cfg⟩, State.powerOn_buf Config.built,
    fun s t hreset => ?_⟩
  cases (exec_reset s).symm.trans hreset
  exact ⟨s.clear_buf, s.clear_cfg⟩

/-- Settles O55: the reset buffer is empty, and `BUF_CAP` is `INF` in the reset configuration. -/
theorem resetIsSettled : Obligations.ResetIsSettled := by
  have hunbounded : State.reset.cfg.bufCap = none := rfl
  refine ⟨.inl (State.powerOn_buf Config.built), fun cap hcap => ?_⟩
  cases hunbounded.symm.trans hcap

/-! ### Earlier outputs -/

/-- `u` with the outputs of `past` before its own, and with the port of `past`. -/
def State.after (u past : State) : State :=
  { u with
    cmdIn := past.cmdIn
    responses := past.responses ++ u.responses
    decoderOut := past.decoderOut ++ u.decoderOut }

section
variable (u past : State)

@[simp] theorem State.after_cfg : (u.after past).cfg = u.cfg := rfl
@[simp] theorem State.after_buf : (u.after past).buf = u.buf := rfl
@[simp] theorem State.after_responses : (u.after past).responses = past.responses ++ u.responses := rfl
@[simp] theorem State.after_decoderOut : (u.after past).decoderOut = past.decoderOut ++ u.decoderOut := rfl

theorem State.after_sameView : (u.after past).SameView u := ⟨rfl, rfl⟩

/-- An effect adds its outputs behind the earlier ones. -/
theorem State.finish_after (e : Effect) : (u.after past).finish e = (u.finish e).after past := by
  simp [State.finish, State.after]

end

/-- After a RESET the block is at power-on but for its port and its output histories (R190, R191; entry 5). -/
theorem clear_acknowledge_eq_powerOn_after (s : State) :
    s.clear.acknowledge = (State.powerOn s.cfg).after s.clear.acknowledge := by
  simp [State.after, State.powerOn, State.acknowledge, State.respond, State.clear]

/-- A run completes, and it runs the same behind earlier outputs: none of its commands reads them. -/
theorem execAll_after (cmds : List Instr) (u past : State) :
    ∃ v, execAll cmds u = .next v ∧ execAll cmds (u.after past) = .next (v.after past) := by
  induction cmds generalizing u with
  | nil => exact ⟨u, rfl, rfl⟩
  | cons i is ih =>
    obtain ⟨e, -, he⟩ := exec_effect i u
    have hexec : exec i u = .next (u.finish e) := he u (.refl u)
    have hexecAfter : exec i (u.after past) = .next ((u.finish e).after past) := by
      rw [he _ (u.after_sameView past), State.finish_after]
    obtain ⟨v, hrun, hrunAfter⟩ := ih (u.finish e)
    exact ⟨v, (execAll_cons_of_exec hexec).trans hrun, (execAll_cons_of_exec hexecAfter).trans hrunAfter⟩

theorem execAll_completes (cmds : List Instr) (s : State) : ∃ t, execAll cmds s = .next t :=
  (execAll_after cmds s s).imp fun _ h => h.1

/-- Settles O25: RESET leaves power-on behind the outputs given so far and its own ACK, and the run goes on from there
as from power-on. -/
theorem nothingSurvivesReset : Obligations.NothingSurvivesReset := by
  intro s t cmds hrun
  obtain ⟨u, hfresh, hafter⟩ := execAll_after cmds (State.powerOn s.cfg) s.clear.acknowledge
  rw [execAll_cons_of_exec (exec_reset s), clear_acknowledge_eq_powerOn_after, hafter] at hrun
  cases hrun
  refine ⟨u, Response.blank .ack 0, hfresh, u.after_cfg _, u.after_buf _, ?_, u.after_decoderOut _⟩
  calc (u.after s.clear.acknowledge).responses
    _ = s.responses ++ [Response.blank .ack 0] ++ u.responses := u.after_responses _
    _ = s.responses ++ Response.blank .ack 0 :: u.responses := (List.append_cons ..).symm

end Sys2Proof.Machine
end

section
/-! Runs of a host that keeps its duties (spec/70_reset_and_hazards.md R197, R200). -/

namespace Sys2Proof.Machine

/-- So the chunk duty is the same for every command of a run (R27, R200). -/
theorem exec_cfg {i : Instr} {s t : State} (h : exec i s = .next t) : t.cfg = s.cfg := by
  obtain ⟨e, -, he⟩ := exec_effect i s
  cases (he s (.refl s)).symm.trans h
  exact s.finish_cfg e

theorem execAll_append {is js : List Instr} {s t : State} (h : execAll is s = .next t) :
    execAll (is ++ js) s = execAll js t := by
  induction is generalizing s with
  | nil => cases h; rfl
  | cons i is ih =>
    obtain ⟨e, -, he⟩ := exec_effect i s
    have hexec : exec i s = .next (s.finish e) := he s (.refl s)
    rw [execAll_cons_of_exec hexec] at h
    exact (execAll_cons_of_exec hexec).trans (ih h)

/-- Within the chunk duty every command of a run is answered once, and not ILLEGAL (R69, R200). -/
theorem execAll_of_chunkDuty (cmds : List Instr) (s : State)
    (hduty : ∀ i ∈ cmds, i.isCommand = true ∧ keepsChunkDuty s.cfg i = true) :
    ∃ t rs, execAll cmds s = .next t ∧ t.responses = s.responses ++ rs ∧ rs.length = cmds.length ∧
      ∀ r ∈ rs, r.evt ≠ .illegal := by
  induction cmds generalizing s with
  | nil => exact ⟨s, [], rfl, by simp, rfl, by simp⟩
  | cons i is ih =>
    obtain ⟨⟨hcommand, hkeeps⟩, hrest⟩ := List.forall_mem_cons.1 hduty
    obtain ⟨v, hexec, r, hresponse, -, hevt⟩ := exec_of_chunkDuty hcommand hkeeps
    rw [← exec_cfg hexec] at hrest
    obtain ⟨t, rs, hrun, hresponses, hlength, hevts⟩ := ih v hrest
    exact ⟨t, r :: rs, (execAll_cons_of_exec hexec).trans hrun, by simp [hresponses, hresponse],
      by simp [hlength], List.forall_mem_cons.2 ⟨hevt, hevts⟩⟩

/-- A run that ends with FLUSH leaves no bytes (R151, R197). -/
theorem execAll_endsWithFlush_buf {cmds : List Instr} {s t : State} (hflush : endsWithFlush cmds = true)
    (h : execAll cmds s = .next t) : t.buf = [] := by
  obtain ⟨is, rfl⟩ := List.getLast?_eq_some_iff.1 (eq_of_beq hflush)
  obtain ⟨v, hbefore⟩ := execAll_completes is s
  have hlast : execAll [.flush] v = .next v.clear.acknowledge := execAll_cons_of_exec (exec_flush v)
  cases ((execAll_append hbefore).trans hlast).symm.trans h
  exact v.clear_buf

/-- Settles O52: the responses by the chunk duty, the empty buffer by the last command. -/
theorem dutifulRunIsNeverIllegal : Obligations.DutifulRunIsNeverIllegal := by
  intro cmds s hduty
  obtain ⟨t, rs, hrun, hresponses, hlength, hevts⟩ := execAll_of_chunkDuty cmds s hduty
  exact ⟨t, rs, hrun, hresponses, hlength, hevts, fun hflush => execAll_endsWithFlush_buf hflush hrun⟩

end Sys2Proof.Machine
end

section
/-! The candidate table of R131 (ASSUMED there; entry 2) over GF(2) (spec/41_crc.md R142 item 4). Its lookup is the
multiplication by x modulo 0x119 and so additive; under an additive table one update of the accumulator is additive in
the accumulator and the byte together (`crcUpdate_xor`), from which the sum of two runs and the cancelling pair of
errors follow. -/

namespace Sys2Proof.Machine

/-! ### The lookup -/

theorem ofNat_two_mul_toNat (a : Byte) : BitVec.ofNat 8 (2 * a.toNat) = a <<< 1 :=
  BitVec.eq_of_toNat_eq (by simp [Nat.shiftLeft_eq, Nat.mul_comm])

/-- The candidate lookup as a shift and a reduction by the bit shifted out (R131). -/
theorem crcLookup_candidate_eq_shift (a : Byte) :
    crcLookup candidateCrcTable a = a <<< 1 ^^^ (if a.msb then 0x19 else 0x00) := by
  have hmsb : a.msb = true ↔ ¬ a.toNat < 128 := by simp [BitVec.msb_eq_decide]
  simp only [crcLookup_candidate, ofNat_two_mul_toNat, hmsb, ite_not]

/-- Settles O32: the bit shifted out is set exactly in the upper half of the table. -/
theorem candidateTableEntries : Obligations.CandidateTableEntries := by
  intro a
  rw [crcLookup_candidate, ofNat_two_mul_toNat]
  split
  · exact BitVec.xor_zero
  · rfl

/-- The lookup is additive over GF(2): the property of R142 item 4 that its two claims turn on. -/
def tableAdditive (table : Vector Byte 256) : Prop :=
  ∀ a b, crcLookup table (a ^^^ b) = crcLookup table a ^^^ crcLookup table b

/-- The shift is additive, and so is the reduction, chosen by one bit of the index. -/
theorem tableAdditive_candidate : tableAdditive candidateCrcTable := by
  intro a b
  simp only [crcLookup_candidate_eq_shift, BitVec.msb_xor, BitVec.shiftLeft_xor_distrib]
  have hreduce : (if (a.msb ^^ b.msb) then 0x19 else 0x00 : Byte) =
      (if a.msb then 0x19 else 0x00) ^^^ (if b.msb then 0x19 else 0x00) := by
    cases a.msb <;> cases b.msb <;> decide
  rw [hreduce]
  ac_rfl

/-! ### The accumulator -/

section
variable {table : Vector Byte 256} (htable : tableAdditive table)
include htable

theorem crcUpdate_xor (acc acc' b b' : Byte) :
    crcUpdate table (acc ^^^ acc') (b ^^^ b') = crcUpdate table acc b ^^^ crcUpdate table acc' b' := by
  rw [crcUpdate, htable]
  simp only [crcUpdate]
  ac_rfl

/-- Two runs over equally many bytes add up, from whatever accumulators they start. -/
theorem foldl_crcUpdate_zipWith_xor {xs ys : List Byte} (hlength : xs.length = ys.length) (acc acc' : Byte) :
    (List.zipWith (fun x y => x ^^^ y) xs ys).foldl (crcUpdate table) (acc ^^^ acc') =
      xs.foldl (crcUpdate table) acc ^^^ ys.foldl (crcUpdate table) acc' := by
  induction xs generalizing ys acc acc' with
  | nil =>
    obtain rfl := List.length_eq_zero_iff.1 hlength.symm
    rfl
  | cons x xs ih =>
    cases ys with
    | nil => cases hlength
    | cons y ys =>
      simp only [List.zipWith_cons_cons, List.foldl_cons, crcUpdate_xor htable]
      exact ih (Nat.succ.inj hlength) _ _

/-- The error `e` in one byte is `e` in the accumulator, which the next lookup turns into `T[e]`. -/
theorem crcUpdate_crcUpdate_compensated (acc x y e : Byte) :
    crcUpdate table (crcUpdate table acc (x ^^^ e)) (y ^^^ crcLookup table e) =
      crcUpdate table (crcUpdate table acc x) y := by
  have herror : crcUpdate table acc (x ^^^ e) = crcUpdate table acc x ^^^ e := (BitVec.xor_assoc ..).symm
  have hcancel : crcUpdate table e (crcLookup table e) = 0 := BitVec.xor_self
  rw [herror, crcUpdate_xor htable, hcancel]
  exact BitVec.xor_zero

end

/-- Settles O33: both accumulators start at 0, which is the sum of 0 and 0. -/
theorem candidateAccumulatorIsLinear : Obligations.CandidateAccumulatorIsLinear := by
  intro xs ys hlength
  exact foldl_crcUpdate_zipWith_xor tableAdditive_candidate hlength 0 0

/-! ### A compensated error -/

/-- `e` flipped in the byte at `i`, and `T[e]` in the next one (R142 item 4). -/
def compensated (table : Vector Byte 256) (bytes : List Byte) (i : Nat) (e : Byte) : List Byte :=
  (bytes.modify i (fun b => b ^^^ e)).modify (i + 1) (fun b => b ^^^ crcLookup table e)

section
variable {table : Vector Byte 256}

theorem compensated_take (bytes : List Byte) (i n : Nat) (e : Byte) :
    (compensated table bytes i e).take n = compensated table (bytes.take n) i e := by
  simp only [compensated, List.take_modify]

theorem compensated_getElem? (bytes : List Byte) {i j : Nat} (e : Byte) (hbehind : i + 1 < j) :
    (compensated table bytes i e)[j]? = bytes[j]? := by
  rw [compensated, List.getElem?_modify_ne _ _ (by omega), List.getElem?_modify_ne _ _ (by omega)]

theorem foldl_crcUpdate_compensated (htable : tableAdditive table) {covered : List Byte} {i : Nat}
    (hi : i + 1 < covered.length) (e acc : Byte) :
    (compensated table covered i e).foldl (crcUpdate table) acc = covered.foldl (crcUpdate table) acc := by
  induction i generalizing covered acc with
  | zero =>
    match covered, hi with
    | x :: y :: rest, _ => exact congrArg (rest.foldl _) (crcUpdate_crcUpdate_compensated htable acc x y e)
  | succ i ih =>
    match covered, hi with
    | x :: xs, hi => exact ih (Nat.lt_of_succ_lt_succ hi) (crcUpdate table acc x)

end

/-- Settles O34: the pair lies in the covered bytes, whose accumulator it leaves, and the CRC byte is behind it. -/
theorem candidateCompensatingError : Obligations.CandidateCompensatingError := by
  intro bytes len i e hcovered hlength
  change crcCheck _ (compensated candidateCrcTable bytes i e) len = _
  have hcrc : bytes[len - 2]? = some (bytes[len - 2]'(by omega)) := List.getElem?_eq_getElem _
  have hkept : (compensated candidateCrcTable bytes i e)[len - 2]? = _ :=
    (compensated_getElem? bytes e (by omega)).trans hcrc
  have hacc : crcAccumulate candidateCrcTable ((compensated candidateCrcTable bytes i e).take (len - 2)) =
      crcAccumulate candidateCrcTable (bytes.take (len - 2)) := by
    rw [compensated_take]
    exact foldl_crcUpdate_compensated tableAdditive_candidate (by rw [List.length_take]; omega) e 0
  rw [crcCheck_of_crc_byte (by omega) hkept, crcCheck_of_crc_byte (by omega) hcrc, hacc]

end Sys2Proof.Machine
end

section
/-! R116 read to the letter (spec/40_demux.md R105, R106, R108; entry 15): a second tag behind a complete frame does not
make the scan wait. -/

namespace Sys2Proof.Machine

/-- A complete frame of kind 1, all zero behind its tag, and then the tag again. -/
def repeatedChStatus : List Byte := Kind.chStatus.tag ++ List.replicate 27 0 ++ Kind.chStatus.tag

/-- The scan measures the frame from the first tag, where it is complete (R106, R108). -/
theorem scan_repeatedChStatus :
    scan .byte repeatedChStatus = .full .chStatus 0 (Kind.chStatus.tag ++ List.replicate 27 0) := by
  have hfind : find .byte repeatedChStatus Kind.chStatus.tag = some 0 := findFirst_of_take_eq rfl
  have hnone : find .byte repeatedChStatus Kind.ignoredHeater.tag = none := by decide
  exact scan_of_complete (selectKind_chStatus hfind hnone) (by decide)

/-- Refutes O42: the second tag stands at position 31 with 4 bytes from there on, and the scan answers FULL for the
frame of the first. -/
theorem not_partialFrameWaitsToTheLetter : ¬ Obligations.PartialFrameWaitsToTheLetter := by
  intro hwaits
  have htag : (repeatedChStatus.drop 31).take 4 = Kind.chStatus.tag := by decide
  have hshort : repeatedChStatus.length < 31 + 31 := by decide
  rcases hwaits repeatedChStatus 31 htag hshort with ⟨q, hwait⟩ | ⟨q, hwait⟩ <;>
    cases scan_repeatedChStatus.symm.trans hwait

end Sys2Proof.Machine
end

section
/-! A PUSH of no bytes between commands (spec/20_memory.md R46, spec/40_demux.md R115 item 1): nothing is appended or
trimmed, and the scan of a settled buffer consumes nothing. -/

namespace Sys2Proof.Machine

/-- The scan of a settled buffer, an empty one among them (R23). -/
theorem scan_of_settledBuf {grid : MatchGrid} {bytes : List Byte} (h : settledBuf grid bytes) :
    scan grid bytes = .noMatch ∨ ∃ k pos, scan grid bytes = .wait k pos := by
  cases hselect : selectKind grid bytes with
  | none => exact .inl (scan_eq_noMatch_iff.2 hselect)
  | some selected =>
    obtain ⟨k, pos⟩ := selected
    exact .inr ⟨k, pos, scan_of_partial hselect (settledBuf_iff.1 h k pos hselect)⟩

/-- The trim leaves a buffer within its capacity as it is, with OVF 0 (R20, R47). -/
theorem State.WithinCap.overflows_trimmed {s : State} (h : s.WithinCap) :
    overflows s.cfg.bufCap s.buf = false ∧ trimmed s.cfg.bufCap s.buf = s.buf := by
  cases hcap : s.cfg.bufCap with
  | none => exact (trimKeepsNewest.1 s.buf).symm
  | some cap => exact (trimKeepsNewest.2 cap s.buf).2 (h cap hcap)

theorem execPush_nil (s : State) : execPush [] s = .next (s.pushOutcome false s.buf) := by
  have hadmitted : ([] : List Byte).length ≤ s.cfg.chunkMax := Nat.zero_le _
  have hplain : diagPrefix [] = false := rfl
  simpa [hplain] using execPush_eq_pushOutcome hadmitted

/-- Settles O51: of the table's rows only NOMATCH and WAIT are left, over the buffer as it stands. -/
theorem emptyPushChangesNothing : Obligations.EmptyPushChangesNothing := by
  intro s hsettled hwithin
  have hpush : exec (.push []) s = .next (s.pushOutcome false s.buf) := execPush_nil s
  obtain ⟨hovf, hkept⟩ := hwithin.overflows_trimmed
  rcases scan_of_settledBuf hsettled with hscan | ⟨k, pos, hscan⟩
  · refine ⟨⟨.noMatch, none, false, false, false, .none, 0, s.buf.length, 0, []⟩, ?_, rfl, rfl, rfl,
      .inl ⟨rfl, hscan⟩⟩
    simp only [hpush, State.pushOutcome, hkept, hovf, hscan]
  · refine ⟨⟨.wait, some k, false, false, false, .none, 0, s.buf.length, pos, []⟩, ?_, rfl, rfl, rfl,
      .inr ⟨k, rfl, rfl, hscan⟩⟩
    simp only [hpush, State.pushOutcome, hkept, hovf, hscan]

end Sys2Proof.Machine
end

section
/-! The informative field map, the waiting step and the built configuration (spec/30_encoding.md R72,
spec/00_scope.md R12; entries 2 to 4). -/

namespace Sys2Proof.Machine

/-- Settles O11: the rows of each of the four kinds, by evaluation of the finite table. -/
theorem fieldMapLiesInBody : Obligations.FieldMapLiesInBody := by
  unfold Obligations.FieldMapLiesInBody
  simp only [fieldMap, List.forall_mem_append]
  refine ⟨⟨⟨?ch, ?hc⟩, ?dhw⟩, ?datetime⟩ <;> decide

/-- Settles O13: of the three things a step does, only waiting is left. -/
theorem stepWaitsForWholeCommand : Obligations.StepWaitsForWholeCommand := by
  intro s hincomplete
  rcases step_cases s with ⟨-, hwait⟩ | ⟨why, rest, hrejected, -⟩ | ⟨i, rest, hinstr, -⟩
  · exact hwait
  · cases hincomplete.symm.trans hrejected
  · cases hincomplete.symm.trans hinstr

/-- A configuration without a capacity is legal exactly when `CHUNK_MAX` is in its range (R12, R192). -/
theorem legal_iff_of_unbounded {cfg : Config} (hcap : cfg.bufCap = none) :
    cfg.legal = true ↔ 1 ≤ cfg.chunkMax ∧ cfg.chunkMax ≤ 65535 := by
  simp [Config.legal, hcap]

/-- Settles O24: the open `CHUNK_MAX` is one more than a number below 65535, and the other parameters are the defaults. -/
theorem builtConfigurationIsLegal : Obligations.BuiltConfigurationIsLegal := by
  have hbound : Config.openChunkMaxPred.val + 1 ≤ 65535 := Config.openChunkMaxPred.isLt
  exact ⟨(legal_iff_of_unbounded rfl).2 ⟨Nat.succ_pos _, hbound⟩, rfl, rfl, rfl⟩

end Sys2Proof.Machine
end
